-- ==== Sys2Proof/Word.lean ====
section
/-! DEFINITION. The two value types of the block: bytes and 32-bit words (00_scope.md R10). -/

namespace Sys2Proof

/-- An unsigned 8-bit value (R10): what the two channels carry. -/
abbrev Byte := BitVec 8

/-- An unsigned 32-bit value (R10). `+` on words is addition modulo 2^32 (R11). -/
abbrev Word := BitVec 32

end Sys2Proof
end

