-- ==== Sys2Proof/Config.lean ====
section
/-! DEFINITION. The block's fixed parameters (00_scope.md R8), its one configuration parameter (R9) and the free values
the spec leaves open (93_implementation_defined.md U6, U7). -/

namespace Sys2Proof

/-- The configuration of one instance (R9). It is held in the state and no step changes it, so every statement about
every state speaks of both settings (DESIGN CHOICE, safe: notes/assumptions/5.md). -/
structure Config where
  /-- WIPE_TRANSIENTS, default true (R9). -/
  wipeTransients : Bool := true
  deriving DecidableEq, Repr

/-- FREE VALUE, no body: what byte i of BUF holds above the fill level after an absorb (R21, R100, U7: any value). The
first argument is the draw, `State.freeIndex` (safe: notes/assumptions/3.md). -/
opaque Config.freeBufByte : Nat → Nat → Byte

/-- FREE VALUE, no body: what the k-th transient word holds after a transform that does not wipe it (R25, U6: any
value). The first argument is the draw (safe: notes/assumptions/3.md). -/
opaque Config.freeTransient : Nat → Nat → Word

/-! R8's fixed parameters stand in the types and the rules: BLOCK_BYTES 64 (`State.buf`), STATE_WORDS 5 (`Chain`), WORD_BITS 32
(`Word`), ROUNDS 80 and SCHEDULE_WORDS 80 (`schedule`, `sha1Rounds`), COUNTER_BITS 64 (`State.count`), DIGEST_BYTES 20
(`State.digest`), LENGTH_FIELD_BYTES 8 (`len64Store`); two are named here. -/

/-- PAD_MARKER (R8). -/
def Config.padMarker : Byte := 0x80#8

/-- MAX_FRAME_LEN, the most data bytes of one ABSORB frame (R8). -/
def Config.maxFrameLen : Nat := 2 ^ 32 - 1

end Sys2Proof
end

