-- ==== Sys2Proof/Syntax.lean ====
section
/-! DEFINITION. The commands of the block, one constructor per row of spec/opcode_table.json. -/

namespace Sys2Proof

/-- A command frame after decoding (30_encoding.md R46 to R52). No command names a register or an address (R16, R31). -/
inductive Instr where
  /-- RESET, opcode 0x01, format F_OP (R47, R51, R107). -/
  | reset
  /-- ABSORB, opcode 0x02, format F_ABS (R48, R51, R109): the LEN field and the DATA bytes. -/
  | absorb (len : Word) (data : List Byte)
  /-- FINALIZE, opcode 0x03, format F_OP (R47, R51, R118). -/
  | finalize
  /-- GET_DIGEST, opcode 0x04, format F_OP (R47, R51, R120). -/
  | getDigest
  /-- ILLEGAL, every other opcode byte, a frame of one byte (R52, R129). -/
  | illegal (op : Byte)
  deriving DecidableEq, Repr

end Sys2Proof
end

