-- ==== Sys2Proof/WellFormed.lean ====
section
/-! DEFINITION. Which commands are the reading of some frame. -/

namespace Sys2Proof

/-- Is this byte the opcode of one of the four commands (R51)? -/
def commandOpcode (op : Byte) : Bool :=
  op == 0x01#8 || op == 0x02#8 || op == 0x03#8 || op == 0x04#8

/-- A command a frame can stand for: an ABSORB carries exactly LEN data bytes (R48), and an ILLEGAL byte is the
opcode of no command (R52). -/
def Instr.wellFormed : Instr → Bool
  | .reset => true
  | .absorb len data => data.length == len.toNat
  | .finalize => true
  | .getDigest => true
  | .illegal op => !commandOpcode op

end Sys2Proof
end

