-- ==== Sys2Proof/Decode.lean ====
section
/-! DEFINITION. The command decoder (30_encoding.md R57) and, after it, the encoder (R47, R48, R51). -/

namespace Sys2Proof

/-- DEC, the decoder's position in the current frame (10_state.md R26). WAIT_LEN's k is the number of length bytes
held, `acc.length`; WAIT_DATA's `got` are the data bytes so far. -/
inductive Dec where
  | waitOp
  | waitLen (acc : List Byte)
  | waitData (len : Word) (got : List Byte)
  deriving DecidableEq, Repr

/-- What one more byte makes of the current frame: a further position in it, or the whole frame. -/
inductive Fed where
  | more (d : Dec)
  | frame (i : Instr)
  deriving DecidableEq, Repr

/-- What the bytes at hand make: a complete frame and the bytes after it, or only a position inside a frame. -/
inductive FrameRead where
  | complete (i : Instr) (rest : List Byte)
  | incomplete (d : Dec)
  deriving DecidableEq, Repr

/-- Operand assembly of the LEN field, most-significant byte first (R50). -/
def lenField (b1 b2 b3 b4 : Byte) : Word :=
  b1.setWidth 32 <<< 24 ||| b2.setWidth 32 <<< 16 ||| b3.setWidth 32 <<< 8 ||| b4.setWidth 32

/-- LEN from the length bytes held (R50). -/
def lenOfBytes (acc : List Byte) : Word :=
  lenField (acc.getD 0 0#8) (acc.getD 1 0#8) (acc.getD 2 0#8) (acc.getD 3 0#8)

/-- The opcode byte (R51, R52): total, every byte starts a frame. -/
def feedOp (op : Byte) : Fed :=
  if op = 0x01#8 then .frame .reset
  else if op = 0x02#8 then .more (.waitLen [])
  else if op = 0x03#8 then .frame .finalize
  else if op = 0x04#8 then .frame .getDigest
  else .frame (.illegal op)

/-- A byte of the LEN field (R48, R57). LEN = 0 is a complete frame with no DATA. A position with four or more length
bytes is held by no run (R26); here it closes the field at once (notes/assumptions/17.md). -/
def feedLen (acc : List Byte) (b : Byte) : Fed :=
  if (acc ++ [b]).length < 4 then .more (.waitLen (acc ++ [b]))
  else if lenOfBytes (acc ++ [b]) = 0#32 then .frame (.absorb (lenOfBytes (acc ++ [b])) [])
  else .more (.waitData (lenOfBytes (acc ++ [b])) [])

/-- A DATA byte, whatever its value (R57, R58). -/
def feedData (len : Word) (got : List Byte) (b : Byte) : Fed :=
  if (got ++ [b]).length < len.toNat then .more (.waitData len (got ++ [b]))
  else .frame (.absorb len (got ++ [b]))

/-- One `InByte()` of the decoder loop (R57). -/
def feed : Dec → Byte → Fed
  | .waitOp, b => feedOp b
  | .waitLen acc, b => feedLen acc b
  | .waitData len got, b => feedData len got b

/-- The decoder loop (R57), from a position in a frame over the bytes at hand, up to the end of the frame. -/
def readFrame : Dec → List Byte → FrameRead
  | d, [] => .incomplete d
  | d, b :: bs =>
    match feed d b with
    | .more d' => readFrame d' bs
    | .frame i => .complete i bs

/-- Decoding from a frame boundary: total on any bytes; a frame that is not yet whole is answered by the decoder's
position in it, and a byte that is no command's opcode by `Instr.illegal` (R52, R57). -/
def decode (bytes : List Byte) : FrameRead :=
  readFrame .waitOp bytes

/-- The whole frames that the bytes hold, in order, from a position of the decoder on (R57); an unfinished frame at the end is
none of them (70_reset_and_hazards.md R150). -/
def framesOf : Dec → List Byte → List Instr
  | _, [] => []
  | d, b :: bs =>
    match feed d b with
    | .more d' => framesOf d' bs
    | .frame i => i :: framesOf .waitOp bs

/-- The frame's length from its first bytes alone (R49). -/
def frameLength (bytes : List Byte) : Nat :=
  if bytes.getD 0 0#8 = 0x02#8 then 5 + (lenOfBytes (bytes.drop 1)).toNat else 1

/-- A position DEC can hold: k in 0..3 length bytes, fewer than LEN data bytes (R26). -/
def Dec.wellFormed : Dec → Bool
  | .waitOp => true
  | .waitLen acc => decide (acc.length ≤ 3)
  | .waitData len got => decide (got.length < len.toNat)

/-- The bytes of a command's frame (R47, R48, R51). -/
def encode : Instr → List Byte
  | .reset => [0x01#8]
  | .absorb len data =>
    [0x02#8, len.extractLsb' 24 8, len.extractLsb' 16 8, len.extractLsb' 8 8, len.extractLsb' 0 8] ++ data
  | .finalize => [0x03#8]
  | .getDigest => [0x04#8]
  | .illegal op => [op]

/-- The bytes a table word of `nbits` bits gives: bits 7..0 are the first byte of the frame. -/
def tableBytes (nbits w : Nat) : List Byte :=
  (List.range (max 1 ((nbits + 7) / 8))).map fun k => BitVec.ofNat 8 (w >>> (8 * k))

/-- The frame that a table word starts, every bit above `nbits` zero: exactly the bytes of that one frame (R49). -/
def tableFrame (nbits w : Nat) : List Byte :=
  let given := tableBytes nbits w ++ List.replicate 4 0#8
  (given ++ List.replicate (frameLength given) 0#8).take (frameLength given)

/-- The instruction the decoder reads from a table word (`nbits` bits, bit 0 the least significant of the first byte). -/
def decodeTableWord (nbits w : Nat) : Option Instr :=
  match decode (tableFrame nbits w) with
  | .complete i _ => some i
  | .incomplete _ => none

/-! Every constructor's decoding, on bytes written out from R47, R48, R51, R52 and R62. -/

theorem decode_reset_bytes : decode [0x01#8] = .complete .reset [] := by decide

/-- `ABSORB "abc"` of R62. -/
theorem decode_absorb_bytes :
    decode [0x02#8, 0x00#8, 0x00#8, 0x00#8, 0x03#8, 0x61#8, 0x62#8, 0x63#8]
      = .complete (.absorb 3#32 [0x61#8, 0x62#8, 0x63#8]) [] := by decide

theorem decode_finalize_bytes : decode [0x03#8] = .complete .finalize [] := by decide

theorem decode_getDigest_bytes : decode [0x04#8] = .complete .getDigest [] := by decide

/-- `.byte 0xFF` of R62. -/
theorem decode_illegal_bytes : decode [0xFF#8] = .complete (.illegal 0xFF#8) [] := by decide

end Sys2Proof
end

