-- ==== Sys2Proof/Machine/WordCodec.lean ====
section
/-! DEFINITION. The component 32bit_word_codec (40_word_codec.md): fixed big-endian conversion between words and bytes.
No function here reads or writes state, and none can fail (R70). -/

namespace Sys2Proof.Machine

/-- `rotl(x, n)`, the 32-bit left rotation, 1 ≤ n ≤ 31 (R63). It is total; n = 0 and n = 32, which no rule uses (U9),
give x (notes/assumptions/14.md). -/
def rotl (x : Word) (n : Nat) : Word :=
  (x <<< n) ||| (x >>> (32 - n))

/-- `be32_load(B, o)`: four bytes to a word, most significant first (R64, R33). -/
def be32Load (bytes : List Byte) (o : Nat) : Word :=
  (bytes.getD o 0#8).setWidth 32 <<< 24 ||| (bytes.getD (o + 1) 0#8).setWidth 32 <<< 16
    ||| (bytes.getD (o + 2) 0#8).setWidth 32 <<< 8 ||| (bytes.getD (o + 3) 0#8).setWidth 32

/-- `be32_store(w)`: a word to four bytes, most significant first (R65). -/
def be32Store (w : Word) : List Byte :=
  [w.extractLsb' 24 8, w.extractLsb' 16 8, w.extractLsb' 8 8, w.extractLsb' 0 8]

/-- `len64_store(hi, lo)`, the length field: high word first (R66, R34, 90_conflicts.md C12). -/
def len64Store (hi lo : Word) : List Byte :=
  be32Store hi ++ be32Store lo

/-- `block_words(blk)`: a 64-byte block to 16 words (R67). -/
def blockWords (blk : Vector Byte 64) : Vector Word 16 :=
  Vector.ofFn fun i => be32Load blk.toList (4 * i.val)

end Sys2Proof.Machine
end

