-- ==== Sys2Proof/Machine/MessageSchedule.lean ====
section
/-! DEFINITION. The component message_schedule_expander (41_message_schedule.md): the 80-word schedule, and the circular
16-word form that R74 says is equal. -/

namespace Sys2Proof.Machine

/-- The next word of the 80-word form: W[t] from W[0..t-1], t = `ws.length` (R72). -/
def nextScheduleWord (ws : List Word) : Word :=
  rotl (ws.getD (ws.length - 3) 0#32 ^^^ ws.getD (ws.length - 8) 0#32 ^^^ ws.getD (ws.length - 14) 0#32
    ^^^ ws.getD (ws.length - 16) 0#32) 1

/-- Append `k` further schedule words (R72). -/
def extendSchedule : Nat → List Word → List Word
  | 0, ws => ws
  | k + 1, ws => extendSchedule k (ws ++ [nextScheduleWord ws])

/-- W[0..79]: the block's 16 words (R71), then 64 more (R72, R78). -/
def schedule (blk : Vector Byte 64) : List Word :=
  extendSchedule 64 (blockWords blk).toList

/-- The circular workspace just before round t reads it (R73): rounds 0 to 15 leave it, later rounds rewrite slot t mod 16. -/
def circularStep (t : Nat) (x : Vector Word 16) : Vector Word 16 :=
  if t < 16 then x
  else x.setIfInBounds (t % 16)
    (rotl (x.toList.getD ((t % 16 + 13) % 16) 0#32 ^^^ x.toList.getD ((t % 16 + 8) % 16) 0#32
      ^^^ x.toList.getD ((t % 16 + 2) % 16) 0#32 ^^^ x.toList.getD (t % 16) 0#32) 1)

/-- The word that round t reads from the workspace (R73). -/
def circularWord (t : Nat) (x : Vector Word 16) : Word :=
  x.toList.getD (t % 16) 0#32

/-- The workspace as round t reads it, from the block: `circularStep` for rounds 0, 1, …, t in turn (R73). -/
def circularAt (blk : Vector Byte 64) : Nat → Vector Word 16
  | 0 => circularStep 0 (blockWords blk)
  | t + 1 => circularStep (t + 1) (circularAt blk t)

end Sys2Proof.Machine
end

