-- ==== Sys2Proof/Machine/Compression.lean ====
section
/-! DEFINITION. The component sha1_compressor (42_compression.md): constants, mixing functions, the round in its two
forms, and the compression transform. -/

namespace Sys2Proof.Machine

/-- H[0..4], the chaining state (10_state.md R17). -/
structure Chain where
  h0 : Word
  h1 : Word
  h2 : Word
  h3 : Word
  h4 : Word
  deriving DecidableEq, Repr

/-- The five working variables of one transform (R25, R86). -/
structure Working where
  a : Word
  b : Word
  c : Word
  d : Word
  e : Word
  deriving DecidableEq, Repr

/-- The initial values of H (10_state.md R18, the spec's item GK1). -/
def initialChain : Chain :=
  { h0 := 0x67452301#32, h1 := 0xEFCDAB89#32, h2 := 0x98BADCFE#32, h3 := 0x10325476#32, h4 := 0xC3D2E1F0#32 }

/-- `digest_bytes(H)` (40_word_codec.md R68): the five words, each most-significant byte first (R35). -/
def digestList (h : Chain) : List Byte :=
  be32Store h.h0 ++ be32Store h.h1 ++ be32Store h.h2 ++ be32Store h.h3 ++ be32Store h.h4

/-- `digest_bytes(H)` as the 20 bytes of the digest register (R68, R116). -/
def digestBytes (h : Chain) : Vector Byte 20 :=
  Vector.ofFn fun i => (digestList h).getD i.val 0#8

/-- f0, choose (R82). -/
def f0 (b c d : Word) : Word := (b &&& c) ||| (~~~b &&& d)

/-- f1, parity (R83). -/
def f1 (b c d : Word) : Word := b ^^^ c ^^^ d

/-- f2, majority (R84). -/
def f2 (b c d : Word) : Word := (b &&& c) ||| (b &&& d) ||| (c &&& d)

/-- f3, parity again (R85, 90_conflicts.md C10). -/
def f3 (b c d : Word) : Word := b ^^^ c ^^^ d

/-- The mixing function of group g = t div 20 (R81). -/
def mix (g : Nat) (b c d : Word) : Word :=
  match g with
  | 0 => f0 b c d
  | 1 => f1 b c d
  | 2 => f2 b c d
  | _ => f3 b c d

/-- The round constant of group g = t div 20 (R80). -/
def roundConstant (g : Nat) : Word :=
  match g with
  | 0 => 0x5A827999#32
  | 1 => 0x6ED9EBA1#32
  | 2 => 0x8F1BBCDC#32
  | _ => 0xCA62C1D6#32

/-- T of round t (R86). -/
def roundT (t : Nat) (wt : Word) (v : Working) : Word :=
  rotl v.a 5 + mix (t / 20) v.b v.c v.d + v.e + roundConstant (t / 20) + wt

/-- One round t with schedule word `wt`, in the normative shift form (R86). -/
def sha1Round (t : Nat) (wt : Word) (v : Working) : Working :=
  { a := roundT t wt v, b := v.a, c := rotl v.b 30, d := v.c, e := v.d }

/-- Rounds t, t+1, … over the schedule words given, in increasing order (R90). -/
def sha1Rounds : Nat → List Word → Working → Working
  | _, [], v => v
  | t, wt :: ws, v => sha1Rounds (t + 1) ws (sha1Round t wt v)

/-- Initialisation: the working variables from H (R89). -/
def workingOf (h : Chain) : Working :=
  { a := h.h0, b := h.h1, c := h.h2, d := h.h3, e := h.h4 }

/-- Feed-forward: add the working variables into H (R91). -/
def feedForward (h : Chain) (v : Working) : Chain :=
  { h0 := h.h0 + v.a, h1 := h.h1 + v.b, h2 := h.h2 + v.c, h3 := h.h3 + v.d, h4 := h.h4 + v.e }

/-- `transform(H, blk)` (R79, R92). -/
def transform (h : Chain) (blk : Vector Byte 64) : Chain :=
  feedForward h (sha1Rounds 0 (schedule blk) (workingOf h))

/-! ## The in-place form of the round (R87) and the transform over the circular workspace (R73) -/

/-- `rename_k` of R87: the five storage variables read as (v, w, x, y, z) of a round t with t mod 5 = k. -/
def renameVars (k : Nat) (s : Working) : Working :=
  match k with
  | 0 => s
  | 1 => { a := s.e, b := s.a, c := s.b, d := s.c, e := s.d }
  | 2 => { a := s.d, b := s.e, c := s.a, d := s.b, e := s.c }
  | 3 => { a := s.c, b := s.d, c := s.e, d := s.a, e := s.b }
  | _ => { a := s.b, b := s.c, c := s.d, d := s.e, e := s.a }

/-- The storage variables that `renameVars k` reads as the given (v, w, x, y, z). -/
def unrenameVars (k : Nat) (v : Working) : Working :=
  match k with
  | 0 => v
  | 1 => { a := v.b, b := v.c, c := v.d, d := v.e, e := v.a }
  | 2 => { a := v.c, b := v.d, c := v.e, d := v.a, e := v.b }
  | 3 => { a := v.d, b := v.e, c := v.a, d := v.b, e := v.c }
  | _ => { a := v.e, b := v.a, c := v.b, d := v.c, e := v.d }

/-- The source's round on (v, w, x, y, z): `z += f(w,x,y) + wt + K + rotl(v,5)`, then `w = rotl(w,30)` (R87). -/
def roundZW (t : Nat) (wt : Word) (v : Working) : Working :=
  { v with e := v.e + (mix (t / 20) v.b v.c v.d + wt + roundConstant (t / 20) + rotl v.a 5), b := rotl v.b 30 }

/-- One in-place round t on the five storage variables (R87). -/
def inPlaceRound (t : Nat) (wt : Word) (s : Working) : Working :=
  unrenameVars (t % 5) (roundZW t wt (renameVars (t % 5) s))

/-- `n` in-place rounds from round t on, each reading its word from the circular workspace (R73, R87). -/
def circularRounds : Nat → Nat → Vector Word 16 → Working → Working
  | 0, _, _, s => s
  | n + 1, t, x, s =>
    circularRounds n (t + 1) (circularStep t x) (inPlaceRound t (circularWord t (circularStep t x)) s)

/-- The transform with the 16-word circular workspace and in-place rounds, the other form the spec allows (R74, R87). -/
def transformInPlace (h : Chain) (blk : Vector Byte 64) : Chain :=
  feedForward h (circularRounds 80 0 (blockWords blk) (workingOf h))

end Sys2Proof.Machine
end

