-- ==== Sys2Proof/Machine/State.lean ====
section
/-! DEFINITION. The state of the block, the reasons a step can stop, and the state after reset (10_state.md). -/

namespace Sys2Proof.Machine

/-- PHASE (10_state.md R22). The value 3 of the 2-bit field is never held, so it is no constructor. -/
inductive Phase where
  | idle
  | absorbing
  | finalized
  deriving DecidableEq, Repr

/-- The transient state of the compression transform, as it stands between frames (R25, R93): the working variables,
T, and the circular schedule workspace. -/
structure Transients where
  a : Word
  b : Word
  c : Word
  d : Word
  e : Word
  t : Word
  w : Vector Word 16
  deriving DecidableEq, Repr

/-- Every transient word zero: after hard reset (R141) and after wiping (R93). -/
def Transients.zero : Transients :=
  { a := 0#32, b := 0#32, c := 0#32, d := 0#32, e := 0#32, t := 0#32, w := Vector.replicate 16 0#32 }

/-- Why the block cannot take a step. Neither is an error of the block: what the spec calls errors are responses (R123). -/
inductive Fault where
  /-- Raised by `step` when no byte has arrived at a frame boundary: `InByte()` blocks, no step (R12, R57). Whether the run
  that led here is final is `RunLog.Final` (R155). Safe: the model stops where the block waits (notes/assumptions/2.md). -/
  | commandChannelEmpty
  /-- Raised by `step` when the bytes of the current frame stop before its last byte: stuck, not final (R150, U11).
  Safe: the model stops where the block waits (notes/assumptions/2.md). -/
  | frameTruncated
  deriving DecidableEq, Repr

/-- Why an instruction has no meaning in the model. -/
inductive Refusal where
  /-- An arm of `exec` whose instruction has no meaning yet. No arm answers it. Safe. -/
  | notModelled (mnemonic : String)
  deriving DecidableEq, Repr

/-- The state: 10_state.md R17 to R30, the two channels of 20_memory.md R32, and the model's bookkeeping. -/
structure State where
  /-- WIPE_TRANSIENTS (R9, R30). No step changes it. -/
  config : Config
  /-- H[0..4] (R17). -/
  h : Chain
  /-- COUNT_HI (R19). -/
  countHi : Word
  /-- COUNT_LO (R19). FILL is its bits [8:3] (R20) and has no storage of its own. -/
  countLo : Word
  /-- BUF[0..63] (R21). -/
  buf : Vector Byte 64
  /-- PHASE (R22). -/
  phase : Phase
  /-- DIGEST[0..19] (R23). -/
  digest : Vector Byte 20
  /-- The transform's transient state (R25). -/
  transients : Transients
  /-- DEC (R26). -/
  dec : Dec
  /-- Bytes on the command channel that the block has not consumed, the oldest first (R32). -/
  commandChannel : List Byte
  /-- Bytes on the response channel that have not been delivered, the oldest first (R32). -/
  responseChannel : List Byte
  /-- The environment has asserted the hard reset and the block has not taken it yet (R141). -/
  hardResetLine : Bool
  /-- The ghost flag misuse_seen: set by every non-zero CODE, cleared by nothing (60_exceptions.md R133). -/
  misuseSeen : Bool
  /-- Ghost: how many compression transforms have run (R101, R115, R153). -/
  transformsRun : Nat
  /-- The model's own: the next draw of a free value (notes/assumptions/6.md). -/
  freeIndex : Nat
  deriving DecidableEq, Repr

/-- The machine right after hard reset (10_state.md R28, 70_reset_and_hazards.md R141), with the default configuration
(R9). The last four fields are the model's bookkeeping (DESIGN CHOICE: notes/assumptions/6.md, 8.md, 9.md, 10.md). -/
def State.reset : State :=
  { config := {}
    h := initialChain
    countHi := 0#32
    countLo := 0#32
    buf := Vector.replicate 64 0#8
    phase := .idle
    digest := Vector.replicate 20 0#8
    transients := .zero
    dec := .waitOp
    commandChannel := []
    responseChannel := []
    hardResetLine := false
    misuseSeen := false
    transformsRun := 0
    freeIndex := 0 }

end Sys2Proof.Machine
end

