-- ==== Sys2Proof/Machine/Flags.lean ====
section
/-! DEFINITION. The status byte. The block stores no flags (10_state.md R24): what a frame reports, it reports here
(30_encoding.md R53, R54). -/

namespace Sys2Proof.Machine

/-- The result CODE of a frame (R54). Codes 5 to 7 are never produced (R56) and are no constructors. -/
inductive Code where
  | ok
  | absorbAfterFinal
  | finalTwice
  | digestEarly
  | illegalOpcode
  deriving DecidableEq, Repr

/-- CODE's three bits (R54). -/
def Code.bits : Code → BitVec 3
  | .ok => 0#3
  | .absorbAfterFinal => 1#3
  | .finalTwice => 2#3
  | .digestEarly => 3#3
  | .illegalOpcode => 4#3

/-- Is this an error code, a non-zero CODE (R123)? -/
def Code.isError (c : Code) : Bool :=
  c.bits != 0#3

/-- PHASE's two bits (R22). -/
def Phase.bits : Phase → BitVec 2
  | .idle => 0#2
  | .absorbing => 1#2
  | .finalized => 2#2

/-- The status byte: zero in [7:5], PHASE in [4:3], CODE in [2:0] (R53). -/
def statusByte (c : Code) (p : Phase) : Byte :=
  0#3 ++ p.bits ++ c.bits

end Sys2Proof.Machine
end

