-- ==== Sys2Proof/Machine/Operands.lean ====
section
/-! DEFINITION. The implicit operands of the commands: the fill level and the counter. ABSORB's explicit operands LEN and
DATA are assembled by the decoder (30_encoding.md R50); no other command has an operand. -/

namespace Sys2Proof.Machine

/-- FILL = COUNT_LO[8:3], the number of valid bytes in BUF (10_state.md R20). -/
def State.fill (s : State) : BitVec 6 :=
  s.countLo.extractLsb' 3 6

/-- COUNT = COUNT_HI ++ COUNT_LO, the 64-bit bit-length counter (R19). -/
def State.count (s : State) : BitVec 64 :=
  s.countHi ++ s.countLo

/-- n = len(data) as the word that the counter update takes (43_streaming_buffer.md R96). -/
def byteCount (data : List Byte) : Word :=
  BitVec.ofNat 32 data.length

/-- BUF[0..FILL-1], the absorbed bytes that do not yet form a block (R21). -/
def State.pending (s : State) : List Byte :=
  s.buf.toList.take s.fill.toNat

end Sys2Proof.Machine
end

