-- ==== Sys2Proof/Machine/Ops.lean ====
section
/-! DEFINITION. The shared operations: the channels, the response, reporting a misuse, initialisation, hard reset, and
what a frame that absorbs leaves unspecified. -/

namespace Sys2Proof.Machine

/-! ## The response channel (00_scope.md R12, 30_encoding.md R53) -/

/-- `OutByte(b)` for each byte given, in order (R12). -/
def State.outBytes (bs : List Byte) (s : State) : State :=
  { s with responseChannel := s.responseChannel ++ bs }

/-- `respond(code)`: the status byte with PHASE as it stands now (R53). Every non-zero CODE sets the ghost flag (R133). -/
def State.respond (c : Code) (s : State) : State :=
  { s with responseChannel := s.responseChannel ++ [statusByte c s.phase], misuseSeen := s.misuseSeen || c.isError }

/-! ## Errors (60_exceptions.md) -/

/-- `raise Misuse(code)`, the block's one way to report an error (R124): the frame's bytes are consumed already, no
architectural state changes, one status byte with the unchanged phase. Nothing is saved and no control moves (R132);
there is no return, the next frame runs as usual (R133). -/
def State.raiseMisuse (c : Code) (s : State) : State :=
  s.respond c

/-! ## Initialisation (43_streaming_buffer.md R107, 70_reset_and_hazards.md R141) -/

/-- What RESET and hard reset both set: H, COUNT, BUF, DIGEST, PHASE (R107, R141 item 1). -/
def State.initialise (s : State) : State :=
  { s with
    h := initialChain
    countHi := 0#32
    countLo := 0#32
    buf := Vector.replicate 64 0#8
    digest := Vector.replicate 20 0#8
    phase := .idle }

/-- Hard reset (R141; 92_eei_decisions.md D14, D32): everything RESET sets, DEC at a frame boundary, both channels
emptied, the transients zeroed, no response. The configuration and the ghost fields are no part of the block and stay
(notes/assumptions/8.md). -/
def State.hardReset (s : State) : State :=
  { s.initialise with
    dec := .waitOp
    commandChannel := []
    responseChannel := []
    transients := .zero
    hardResetLine := false }

/-! ## What a frame that absorbs leaves unspecified (R21, R25, R100; U6, U7) -/

/-- The transients drawn free (U6). -/
def freeTransients (k : Nat) : Transients :=
  { a := Config.freeTransient k 0
    b := Config.freeTransient k 1
    c := Config.freeTransient k 2
    d := Config.freeTransient k 3
    e := Config.freeTransient k 4
    t := Config.freeTransient k 5
    w := Vector.ofFn fun i => Config.freeTransient k (6 + i.val) }

/-- The transients after a transform: zero when WIPE_TRANSIENTS, any value otherwise (R25, R93, U6). -/
def transientsAfter (config : Config) (k : Nat) : Transients :=
  if config.wipeTransients then .zero else freeTransients k

/-- BUF with the bytes from the fill level on drawn free (R21, R100, U7). -/
def unspecifiedTail (k fill : Nat) (buf : Vector Byte 64) : Vector Byte 64 :=
  Vector.ofFn fun i => if i.val < fill then buf[i] else Config.freeBufByte k i.val

/-- The end of a frame that absorbed at least one byte, begun in a state that had run `runs0` transforms: BUF[FILL..63]
holds any value, and so do the transients if a transform ran and they are not wiped. One draw is used up. -/
def State.leaveUnspecified (runs0 : Nat) (s : State) : State :=
  { s with
    buf := unspecifiedTail s.freeIndex s.fill.toNat s.buf
    transients := if runs0 < s.transformsRun then transientsAfter s.config s.freeIndex else s.transients
    freeIndex := s.freeIndex + 1 }

/-! ## The command channel (30_encoding.md R57) -/

/-- Read the command channel up to the end of the current frame (R57). -/
def State.fetch (s : State) : FrameRead :=
  readFrame s.dec s.commandChannel

/-- The whole frame is consumed; the decoder stands at a frame boundary and the rest of the bytes wait (R57, R124). -/
def State.consumed (rest : List Byte) (s : State) : State :=
  { s with dec := .waitOp, commandChannel := rest }

/-- Every byte at hand is consumed and the frame is not whole: the decoder stands at `d` inside it (R26, R57). -/
def State.waiting (d : Dec) (s : State) : State :=
  { s with dec := d, commandChannel := [] }

/-- No byte is left to read (R12 'no step'): waiting at a frame boundary (R155 item 1), or stuck inside a frame (R150). -/
def noByte : Dec → Fault
  | .waitOp => .commandChannelEmpty
  | .waitLen _ => .frameTruncated
  | .waitData _ _ => .frameTruncated

/-- The bytes at hand end before the frame does: consume them, or, if there is none, no step (R57, R150). -/
def State.awaitBytes (d : Dec) (s : State) : Host.Outcome State Fault Refusal :=
  match s.commandChannel with
  | [] => .fault (noByte d)
  | _ :: _ => .next (s.waiting d)

/-! ## The environment (60_exceptions.md R140) -/

/-- The host sends bytes (R32, R140). -/
def State.send (bs : List Byte) (s : State) : State :=
  { s with commandChannel := s.commandChannel ++ bs }

/-- The host takes up to `n` of the undelivered response bytes, the oldest first, at any pace (R32, R140). -/
def State.takeResponse (n : Nat) (s : State) : List Byte × State :=
  (s.responseChannel.take n, { s with responseChannel := s.responseChannel.drop n })

/-- The environment asserts the hard reset (R141); the next step takes it. -/
def State.assertHardReset (s : State) : State :=
  { s with hardResetLine := true }

end Sys2Proof.Machine
end

