-- ==== Sys2Proof/Machine/StreamingBuffer.lean ====
section
/-! DEFINITION. The component streaming_buffer_with_counter (43_streaming_buffer.md): the counter, the absorb step in the
normative form and in the source's three-part form, and the commands RESET and ABSORB. -/

namespace Sys2Proof.Machine

/-- `counter_add(hi, lo, n)` (R96): the new (COUNT_HI, COUNT_LO). -/
def counterAdd (hi lo n : Word) : Word × Word :=
  let add := n <<< 3
  let lo' := lo + add
  let c : Word := if lo' < add then 1#32 else 0#32
  (hi + c + (n.extractLsb' 29 3).setWidth 32, lo')

/-- The variables of the absorb loop (R98): H, BUF, j, and how many transforms the loop has run. -/
structure Filling where
  h : Chain
  buf : Vector Byte 64
  j : Nat
  runs : Nat
  deriving DecidableEq, Repr

/-- One pass of the absorb loop (R98): `BUF[j] <- b`, and at 64 bytes one transform. -/
def absorbByte (f : Filling) (b : Byte) : Filling :=
  let buf := f.buf.setIfInBounds f.j b
  if f.j + 1 = 64 then { h := transform f.h buf, buf := buf, j := 0, runs := f.runs + 1 }
  else { f with buf := buf, j := f.j + 1 }

/-- The absorb loop over all of the data (R98). -/
def absorbLoop (f : Filling) : List Byte → Filling
  | [] => f
  | b :: bs => absorbLoop (absorbByte f b) bs

/-- The loop's variables at its start: j is FILL as it stands before the counter update (R97, R98). -/
def State.filling (s : State) : Filling :=
  { h := s.h, buf := s.buf, j := s.fill.toNat, runs := 0 }

/-- `absorb_bytes(data)` (R98). PHASE is neither read nor written; its two callers are ABSORB and the padding (R112). -/
def State.absorbBytes (data : List Byte) (s : State) : State :=
  { s with
    countHi := (counterAdd s.countHi s.countLo (byteCount data)).1
    countLo := (counterAdd s.countHi s.countLo (byteCount data)).2
    h := (absorbLoop s.filling data).h
    buf := (absorbLoop s.filling data).buf
    transformsRun := s.transformsRun + (absorbLoop s.filling data).runs }

/-- `exec_RESET()` (R107): accepted in every phase, never fails. -/
def execReset (s : State) : Host.Outcome State Fault Refusal :=
  .next (s.initialise.respond .ok)

/-- The effect of an ABSORB that is no misuse (R109): absorb the data; the first byte enters ABSORBING; LEN = 0 is a no-op. -/
def State.absorbFrame (len : Word) (data : List Byte) (s : State) : State :=
  if len = 0#32 then s.absorbBytes data
  else { (s.absorbBytes data).leaveUnspecified s.transformsRun with phase := .absorbing }

/-- `exec_ABSORB(L, data)` (R109, R126): in FINALIZED a misuse for every L (90_conflicts.md C3). -/
def execAbsorb (len : Word) (data : List Byte) (s : State) : Host.Outcome State Fault Refusal :=
  if s.phase = .finalized then .next (s.raiseMisuse .absorbAfterFinal)
  else .next ((s.absorbFrame len data).respond .ok)

/-! ## The source's three-part form of the absorb algorithm (R99, R100) -/

/-- 64 bytes of a byte sequence as a block, from its start. -/
def blockOf (bytes : List Byte) : Vector Byte 64 :=
  Vector.ofFn fun i => bytes.getD i.val 0#8

/-- Write bytes into BUF from index j on. -/
def copyInto (buf : Vector Byte 64) (j : Nat) : List Byte → Vector Byte 64
  | [] => buf
  | b :: bs => copyInto (buf.setIfInBounds j b) (j + 1) bs

/-- `n` full blocks transformed directly from the input, in order (R99). -/
def directBlocks : Nat → Chain → List Byte → Chain
  | 0, h, _ => h
  | n + 1, h, data => directBlocks n (transform h (blockOf data)) (data.drop 64)

/-- The loop variables after absorbing `data` the way the source states it (R99): fill the buffer, transform whole
blocks straight from the input, copy the tail. -/
def absorbDirect (f : Filling) (data : List Byte) : Filling :=
  if f.j + data.length < 64 then
    { f with buf := copyInto f.buf f.j data, j := f.j + data.length }
  else
    let first := copyInto f.buf f.j (data.take (64 - f.j))
    let rest := data.drop (64 - f.j)
    let n := rest.length / 64
    { h := directBlocks n (transform f.h first) rest
      buf := copyInto first 0 (rest.drop (64 * n))
      j := rest.length % 64
      runs := f.runs + 1 + n }

/-- `absorb(data)` as the source states it (R99): the counter as in R97, the buffer by `absorbDirect`. -/
def State.absorbBytesDirect (data : List Byte) (s : State) : State :=
  { s with
    countHi := (counterAdd s.countHi s.countLo (byteCount data)).1
    countLo := (counterAdd s.countHi s.countLo (byteCount data)).2
    h := (absorbDirect s.filling data).h
    buf := (absorbDirect s.filling data).buf
    transformsRun := s.transformsRun + (absorbDirect s.filling data).runs }

end Sys2Proof.Machine
end

