-- ==== Sys2Proof/Machine/Finalizer.lean ====
section
/-! DEFINITION. The component sha1_finalizer (44_finalizer.md): the padding and the commands FINALIZE and GET_DIGEST. -/

namespace Sys2Proof.Machine

/-- The `while` loop of the padding (R114): absorb zero bytes until FILL = 56. At most 63 are needed (R115), so fuel 64 is
never used up (notes/assumptions/15.md). -/
def State.padZeros : Nat → State → State
  | 0, s => s
  | k + 1, s => if s.fill = 56#6 then s else State.padZeros k (s.absorbBytes [0#8])

/-- The captured length field LF (R113). -/
def State.lengthField (s : State) : List Byte :=
  len64Store s.countHi s.countLo

/-- `pad()` with the captured length field (R114). -/
def State.pad (lf : List Byte) (s : State) : State :=
  (State.padZeros 64 (s.absorbBytes [Config.padMarker])).absorbBytes lf

/-- Digest production (R116). -/
def State.produceDigest (s : State) : State :=
  { s with digest := digestBytes s.h, phase := .finalized }

/-- The effect of a FINALIZE that is no misuse (R118): capture, pad, digest, phase; BUF is unspecified after it (R117). -/
def State.finalizeFrame (s : State) : State :=
  (s.pad s.lengthField).produceDigest.leaveUnspecified s.transformsRun

/-- `exec_FINALIZE()` (R118, R127). Legal in IDLE (90_conflicts.md C9); returns no digest bytes (C8). -/
def execFinalize (s : State) : Host.Outcome State Fault Refusal :=
  if s.phase = .finalized then .next (s.raiseMisuse .finalTwice)
  else .next (s.finalizeFrame.respond .ok)

/-- `exec_GET_DIGEST()` (R120, R121, R128): the status byte, then DIGEST[0..19]; writes no state. -/
def execGetDigest (s : State) : Host.Outcome State Fault Refusal :=
  if s.phase = .finalized then .next ((s.respond .ok).outBytes s.digest.toList)
  else .next (s.raiseMisuse .digestEarly)

end Sys2Proof.Machine
end

