-- ==== Sys2Proof/Machine/Illegal.lean ====
section
/-! DEFINITION. The catch-all row of the opcode map: illegal opcode bytes (60_exceptions.md R129). -/

namespace Sys2Proof.Machine

/-- An illegal opcode byte (R52, R129): one byte consumed, no state change, E_ILLEGAL_OPCODE. The byte is not echoed (R125). -/
def execIllegal (_op : Byte) (s : State) : Host.Outcome State Fault Refusal :=
  .next (s.raiseMisuse .illegalOpcode)

end Sys2Proof.Machine
end

