-- ==== Sys2Proof/Machine/Dispatch.lean ====
section
/-! DEFINITION. One arm per command (30_encoding.md R51, R52). -/

namespace Sys2Proof.Machine

def exec (i : Instr) (s : State) : Host.Outcome State Fault Refusal :=
  match i with
  | .reset => Sys2Proof.Machine.execReset s
  | .absorb len data => Sys2Proof.Machine.execAbsorb len data s
  | .finalize => Sys2Proof.Machine.execFinalize s
  | .getDigest => Sys2Proof.Machine.execGetDigest s
  | .illegal op => Sys2Proof.Machine.execIllegal op s

end Sys2Proof.Machine
end

