-- ==== Sys2Proof/Machine/Step.lean ====
section
/-! DEFINITION. One step of the block: take an asserted hard reset, else execute the next complete frame of the command
channel as one atomic step (00_scope.md R7, 30_encoding.md R57). -/

namespace Sys2Proof.Machine

/-- One step. A pending hard reset is taken first (70_reset_and_hazards.md R141). Otherwise the decoder reads the command
channel: a complete frame is executed in this same step (R7, R39); bytes that do not complete one only move DEC; with no
byte to read there is no step (R57, R150, R155; notes/assumptions/1.md, 2.md). -/
def step (s : State) : Host.Outcome State Fault Refusal :=
  if s.hardResetLine then .next s.hardReset
  else
    match s.fetch with
    | .complete i rest => exec i (s.consumed rest)
    | .incomplete d => s.awaitBytes d

/-- The state with the frame of a table word, and nothing else, on the command channel at a frame boundary, and no hard
reset asserted: the very next step runs it. It stands for the host sending that frame (notes/assumptions/11.md). -/
def State.withFetchWord (s : State) (nbits w : Nat) : State :=
  { s with dec := .waitOp, commandChannel := tableFrame nbits w, hardResetLine := false }

end Sys2Proof.Machine
end

