-- ==== Sys2Proof/Machine/Assembly.lean ====
section
/-! DEFINITION. The assembly notation and its pseudo-instructions (30_encoding.md R60, R61): notation for streams of frames,
with no effect on the block. -/

namespace Sys2Proof.Machine

/-- One line of the assembly syntax (R60, R61). A string operand stands as its bytes. -/
inductive Asm where
  | reset
  | absorb (data : List Byte)
  | absorbRep (n : Nat) (b : Byte)
  | absorbChunked (k : Nat) (data : List Byte)
  | finalize
  | getDigest
  | byte (b : Byte)
  | hash (data : List Byte)
  deriving DecidableEq, Repr

/-- The ABSORB frame that carries the given bytes (R60). -/
def absorbOf (data : List Byte) : Instr :=
  .absorb (BitVec.ofNat 32 data.length) data

/-- Pieces of k bytes with a last piece of the remaining 1 to k bytes; none for an empty string (R61); k is at least 1.
The fuel bounds the number of pieces. -/
def piecesOf (k : Nat) : Nat → List Byte → List (List Byte)
  | 0, _ => []
  | _ + 1, [] => []
  | fuel + 1, b :: bs => (b :: bs).take k :: piecesOf k fuel ((b :: bs).drop k)

/-- The pieces that `ABSORB.CHUNKED k` sends (R61). -/
def chunks (k : Nat) (data : List Byte) : List (List Byte) :=
  piecesOf k data.length data

/-- The bytes a line stands for (R60, R61). -/
def Asm.bytes : Asm → List Byte
  | .reset => encode .reset
  | .absorb data => encode (absorbOf data)
  | .absorbRep n b => encode (absorbOf (List.replicate n b))
  | .absorbChunked k data => (chunks k data).flatMap fun piece => encode (absorbOf piece)
  | .finalize => encode .finalize
  | .getDigest => encode .getDigest
  | .byte b => [b]
  | .hash data => encode .reset ++ encode (absorbOf data) ++ encode .finalize ++ encode .getDigest

/-- A program's bytes, line after line (R60). -/
def assemble (lines : List Asm) : List Byte :=
  lines.flatMap Asm.bytes

end Sys2Proof.Machine
end

