-- ==== Sys2Proof/Machine/Execution.lean ====
section
/-! DEFINITION. Runs of the block among the actions of its environment: weak fairness (70_reset_and_hazards.md R154) and when
a run on a finite command stream is final (R155). No step uses this file. -/

namespace Sys2Proof.Machine

/-- What can happen next: a step of the block, the one agent (20_memory.md R42), or an action of the environment
(60_exceptions.md R140), or nothing. -/
inductive RunAction where
  /-- The block takes a step. -/
  | block
  /-- The host sends bytes. -/
  | send (bs : List Byte)
  /-- The host takes up to `n` response bytes. -/
  | take (n : Nat)
  /-- The environment asserts the hard reset. -/
  | assertHardReset
  /-- Nothing happens: the delay before the block's next step is not bounded (R153, R154). -/
  | idle
  deriving DecidableEq, Repr

/-- What an action makes of a state. -/
def RunAction.perform : RunAction → State → Host.Outcome State Fault Refusal
  | .block, s => step s
  | .send bs, s => .next (s.send bs)
  | .take n, s => .next (s.takeResponse n).2
  | .assertHardReset, s => .next s.assertHardReset
  | .idle, s => .next s

/-! ## Progress (R154) -/

/-- An unending run: `act n` leads from `run n` to `run (n + 1)`. -/
def Execution (run : Nat → State) (act : Nat → RunAction) : Prop :=
  ∀ n, (act n).perform (run n) = .next (run (n + 1))

/-- The block can take a step. -/
def Enabled (s : State) : Prop :=
  ∃ t : State, step s = .next t

/-- Weak fairness of the block (R154): if from some point on it can always take a step, it takes one at or after that
point. No bound is set on when. -/
def WeaklyFair (run : Nat → State) (act : Nat → RunAction) : Prop :=
  ∀ n, (∀ m, n ≤ m → Enabled (run m)) → ∃ m, n ≤ m ∧ act m = .block

/-- How many of the actions n, n+1, …, m-1 are steps of the block. -/
def blockSteps (act : Nat → RunAction) (n m : Nat) : Nat :=
  ((List.range (m - n)).filter fun j => act (n + j) = .block).length

/-! ## Final runs (R155) -/

/-- What R155 asks of a run, kept beside it (bookkeeping, no state of the block: notes/assumptions/21.md). -/
structure RunLog where
  /-- The state the run has reached. -/
  state : State
  /-- DEC when the run began, or WAIT_OP since the last hard reset. -/
  startDec : Dec
  /-- The bytes of the command stream S since then. -/
  sent : List Byte
  /-- How many bytes of S came before the last hard reset. -/
  earlierBytes : Nat
  /-- How many whole frames of S came before the last hard reset. -/
  earlierFrames : Nat
  /-- How many bytes of S the block has consumed; bytes that a hard reset discards unread do not count. -/
  read : Nat
  /-- How many responses the block has emitted, whether delivered or discarded since. -/
  responses : Nat
  deriving DecidableEq, Repr

/-- The log at the beginning of a run: the bytes already on the command channel are the beginning of S. -/
def RunLog.start (s : State) : RunLog :=
  { state := s, startDec := s.dec, sent := s.commandChannel, earlierBytes := 0, earlierFrames := 0, read := 0, responses := 0 }

/-- How many whole frames S has; the framing begins anew after a hard reset (R141 item 2). -/
def RunLog.frames (r : RunLog) : Nat :=
  r.earlierFrames + (framesOf r.startDec r.sent).length

/-- A hard reset taken: what was sent before it is closed, read or not (R141). -/
def RunLog.recordHardReset (t : State) (r : RunLog) : RunLog :=
  { r with state := t, startDec := .waitOp, sent := [], earlierBytes := r.earlierBytes + r.sent.length,
           earlierFrames := r.frames }

/-- Any other step of the block: the bytes that left the command channel are read, and a response channel that grew has one
response more. -/
def RunLog.recordStep (t : State) (r : RunLog) : RunLog :=
  { r with state := t
           read := r.read + (r.state.commandChannel.length - t.commandChannel.length)
           responses := r.responses + if r.state.responseChannel.length < t.responseChannel.length then 1 else 0 }

/-- The log after an action that led to `t`. -/
def RunLog.record (a : RunAction) (t : State) (r : RunLog) : RunLog :=
  match a with
  | .block => if r.state.hardResetLine then r.recordHardReset t else r.recordStep t
  | .send bs => { r with state := t, sent := r.sent ++ bs }
  | .take _ => { r with state := t }
  | .assertHardReset => { r with state := t }
  | .idle => { r with state := t }

/-- The log after a list of actions; none if one of them cannot happen (a step of the block with no byte to read). -/
def RunLog.play : List RunAction → RunLog → Option RunLog
  | [], r => some r
  | a :: as, r =>
    match a.perform r.state with
    | .next t => RunLog.play as (r.record a t)
    | .fault _ => none
    | .refused _ => none

/-- The run is final (R155): item 1, every byte of S has been consumed and DEC = WAIT_OP; item 2, one response has been
emitted for every frame of S. -/
abbrev RunLog.Final (r : RunLog) : Prop :=
  (r.read = r.earlierBytes + r.sent.length ∧ r.state.dec = .waitOp) ∧ r.responses = r.frames

end Sys2Proof.Machine
end

