-- ==== Sys2Proof/Machine/Message.lean ====
section
/-! DEFINITION. The digest of a whole message in one piece (00_scope.md R1, R2, R14; 44_finalizer.md R113 to R116): what
the incremental commands are held against. No step uses this file. -/

namespace Sys2Proof.Machine

/-- The chaining state after every full 64-byte block of a byte stream, in order, from `h` on (R14 'Merkle–Damgård', R79). -/
def hashStream (h : Chain) (stream : List Byte) : Chain :=
  directBlocks (stream.length / 64) h stream

/-- The bytes of a stream that do not yet form a block (R14 'Buffer'). -/
def streamTail (stream : List Byte) : List Byte :=
  stream.drop (64 * (stream.length / 64))

/-- Z, the number of zero bytes of the padding, from the fill level j before it: (55 − j) mod 64 (R115). -/
def zeroBytes (j : Nat) : Nat :=
  (119 - j) % 64

/-- The padding from the fill level j and the length field (R114, R115). -/
def paddingBytes (j : Nat) (lf : List Byte) : List Byte :=
  [Config.padMarker] ++ List.replicate (zeroBytes j) 0#8 ++ lf

/-- 8 × the message's bytes modulo 2^64, as the two counter words (R19, R113). -/
def bitLength (message : List Byte) : BitVec 64 :=
  BitVec.ofNat 64 (8 * message.length)

/-- The length field of a message (R66, R113). -/
def lengthFieldOf (message : List Byte) : List Byte :=
  len64Store ((bitLength message).extractLsb' 32 32) ((bitLength message).extractLsb' 0 32)

/-- The message with its padding: a whole number of blocks (R14 'Padding', R115). -/
def paddedMessage (message : List Byte) : List Byte :=
  message ++ paddingBytes (message.length % 64) (lengthFieldOf message)

/-- The SHA-1 digest of a message in one piece (R1, R2, R116). -/
def sha1 (message : List Byte) : Vector Byte 20 :=
  digestBytes (hashStream initialChain (paddedMessage message))

end Sys2Proof.Machine
end

