-- ==== Sys2Proof/Safety.lean ====
section
/-! DEFINITION. The terms claims are stated in: which frames are errors, the invariant of 10_state.md R27, final and stuck
states, what a state holds of a byte stream, and what a host can tell apart. -/

namespace Sys2Proof.Machine

/-- The error condition of each opcode (60_exceptions.md R125, R131): CODE of the frame's response in a given phase. -/
def codeOf : Instr → Phase → Code
  | .reset, _ => .ok
  | .absorb _ _, .finalized => .absorbAfterFinal
  | .absorb _ _, _ => .ok
  | .finalize, .finalized => .finalTwice
  | .finalize, _ => .ok
  | .getDigest, .finalized => .ok
  | .getDigest, _ => .digestEarly
  | .illegal _, _ => .illegalOpcode

/-- The invariant between frames (10_state.md R27) and on the counter's low bits (43_streaming_buffer.md R106). R27 item 1
holds by FILL's width, and item 5's DEC is read as: the decoder stands at a position R26 gives. -/
abbrev State.Inv (s : State) : Prop :=
  s.dec.wellFormed = true
  ∧ s.countLo.extractLsb' 0 3 = 0#3
  ∧ (s.phase = .idle → s.count = 0#64 ∧ s.h = initialChain ∧ s.digest = Vector.replicate 20 0#8)
  ∧ (s.phase = .finalized → s.fill = 0#6 ∧ s.digest = digestBytes s.h)

/-- No byte left to consume and the decoder at a frame boundary: what R155 item 1 asks of the state a run ends in. That every
byte was consumed, not discarded, and item 2 are about the run: `RunLog.Final`. -/
abbrev State.Final (s : State) : Prop :=
  s.commandChannel = [] ∧ s.dec = .waitOp

/-- Every byte consumed inside a frame: stuck, not final (R150, R155). -/
abbrev State.Stuck (s : State) : Prop :=
  s.commandChannel = [] ∧ s.dec ≠ .waitOp

/-- The state holds the byte stream absorbed since the last reset: H after its full blocks, the rest in BUF, COUNT its
bits modulo 2^64 (10_state.md R19, R21; 43_streaming_buffer.md R102). -/
abbrev State.Holds (stream : List Byte) (s : State) : Prop :=
  s.h = hashStream initialChain stream
  ∧ s.pending = streamTail stream
  ∧ s.count = bitLength stream

/-- H[i] for i in 0..4 (00_scope.md R12). -/
def Chain.word (h : Chain) : Nat → Word
  | 0 => h.h0
  | 1 => h.h1
  | 2 => h.h2
  | 3 => h.h3
  | _ => h.h4

/-- Two states a host cannot tell apart (10_state.md R16, R29; 44_finalizer.md R117): equal channels, decoder and phase;
before FINALIZE equal H, COUNT and BUF[0..FILL-1]; after it an equal DIGEST. -/
abbrev SameForHost (s u : State) : Prop :=
  s.commandChannel = u.commandChannel
  ∧ s.responseChannel = u.responseChannel
  ∧ s.dec = u.dec
  ∧ s.hardResetLine = u.hardResetLine
  ∧ s.phase = u.phase
  ∧ (s.phase = .finalized → s.digest = u.digest)
  ∧ (s.phase ≠ .finalized →
      s.h = u.h ∧ s.countHi = u.countHi ∧ s.countLo = u.countLo ∧ s.pending = u.pending)

/-- Outcomes a host cannot tell apart: next states it cannot tell apart, or the same stop. -/
def SameOutcome : Host.Outcome State Fault Refusal → Host.Outcome State Fault Refusal → Prop
  | .next s, .next u => SameForHost s u
  | .fault r, .fault q => r = q
  | .refused r, .refused q => r = q
  | _, _ => False

/-- The commands of a list executed one after the other, each on the state the one before it left (20_memory.md R42). -/
def execAll : List Instr → State → Host.Outcome State Fault Refusal
  | [], s => .next s
  | i :: is, s =>
    match exec i s with
    | .next t => execAll is t
    | .fault r => .fault r
    | .refused r => .refused r

end Sys2Proof.Machine
end

