-- ==== Sys2Proof/Certificates/Slice0/Obligations.lean ====
section
/-! DEFINITION. The statements for the provers, from the numbered rules of spec/. Nothing is proved here. -/

open Sys2Proof Sys2Proof.Machine

/-! ## Frames and the decoder (30_encoding.md) -/

/-- R62: the encoding examples, as the assembler writes them and as the decoder reads them. -/
def Obligations.EncodingExamples : Prop :=
  assemble [.reset] = [0x01#8]
  ∧ assemble [.absorb [0x61#8, 0x62#8, 0x63#8]] = [0x02#8, 0#8, 0#8, 0#8, 0x03#8, 0x61#8, 0x62#8, 0x63#8]
  ∧ assemble [.absorb []] = [0x02#8, 0#8, 0#8, 0#8, 0#8]
  ∧ assemble [.absorbRep 1000 0x61#8] = [0x02#8, 0#8, 0#8, 0x03#8, 0xE8#8] ++ List.replicate 1000 0x61#8
  ∧ assemble [.finalize] = [0x03#8]
  ∧ assemble [.getDigest] = [0x04#8]
  ∧ assemble [.byte 0xFF#8] = [0xFF#8]
  ∧ decode [0x01#8] = .complete .reset []
  ∧ decode [0x02#8, 0#8, 0#8, 0#8, 0x03#8, 0x61#8, 0x62#8, 0x63#8]
      = .complete (.absorb 3#32 [0x61#8, 0x62#8, 0x63#8]) []
  ∧ decode [0x02#8, 0#8, 0#8, 0#8, 0#8] = .complete (.absorb 0#32 []) []
  ∧ decode [0x03#8] = .complete .finalize []
  ∧ decode [0x04#8] = .complete .getDigest []
  ∧ decode [0xFF#8] = .complete (.illegal 0xFF#8) []

/-- R47 to R52: every well-formed command, with every LEN and every DATA, is read back from its frame, whatever bytes follow. -/
def Obligations.DecodeOfEncodeIsTheCommand : Prop :=
  ∀ (i : Instr) (rest : List Byte), i.wellFormed = true → decode (encode i ++ rest) = .complete i rest

/-- R47 to R52: a frame the decoder reads is the encoding of a well-formed command, so every frame has one meaning. -/
def Obligations.DecodedFrameIsItsEncoding : Prop :=
  ∀ (bytes : List Byte) (i : Instr) (rest : List Byte),
    decode bytes = .complete i rest → i.wellFormed = true ∧ bytes = encode i ++ rest

/-- R49: the frame's length follows from its first byte and, for ABSORB, from LEN. -/
def Obligations.FrameLengthFromFirstBytes : Prop :=
  ∀ (bytes : List Byte) (i : Instr) (rest : List Byte),
    decode bytes = .complete i rest →
      bytes.length = rest.length
        + (if bytes.getD 0 0#8 = 0x02#8 then 5 + (lenOfBytes (bytes.drop 1)).toNat else 1)

/-- R50, R58: after the opcode and four LEN bytes, the next LEN bytes are DATA whatever their values and whatever the host
meant them to be. -/
def Obligations.EveryDataByteIsData : Prop :=
  ∀ (b1 b2 b3 b4 : Byte) (bytes : List Byte),
    let len := b1.toNat * 2 ^ 24 + b2.toNat * 2 ^ 16 + b3.toNat * 2 ^ 8 + b4.toNat
    len ≤ bytes.length →
      decode ([0x02#8, b1, b2, b3, b4] ++ bytes)
        = .complete (.absorb (BitVec.ofNat 32 len) (bytes.take len)) (bytes.drop len)

/-- R57, R26: the decoder's position carries the whole of what it has read, so bytes may arrive in any pieces. -/
def Obligations.DecodingResumesAtDec : Prop :=
  ∀ (d d' : Dec) (first later : List Byte),
    readFrame d first = .incomplete d' → readFrame d (first ++ later) = readFrame d' later

/-! ## The word codec (40_word_codec.md) -/

/-- R69: the round-trip laws of the codec. -/
def Obligations.CodecRoundTrips : Prop :=
  (∀ w : Word, be32Load (be32Store w) 0 = w)
  ∧ ∀ (bytes : List Byte) (o : Nat), o + 3 < bytes.length →
      be32Store (be32Load bytes o) = (bytes.drop o).take 4

/-- R34, R35: the length field is the 64-bit count from its most significant byte down, and DIGEST[4i+k] is
H[i][31-8k : 24-8k]. -/
def Obligations.SerialisationIsBigEndian : Prop :=
  (∀ (hi lo : Word) (k : Nat), k < 8 →
      (len64Store hi lo).getD k 0#8 = (hi ++ lo : BitVec 64).extractLsb' (56 - 8 * k) 8)
  ∧ ∀ (h : Chain) (i k : Nat), i < 5 → k < 4 →
      (digestBytes h).toList.getD (4 * i + k) 0#8 = (h.word i).extractLsb' (24 - 8 * k) 8

/-! ## The message schedule (41_message_schedule.md) -/

/-- R71, R72, R78: the 80 schedule words, the first 16 from the block big-endian, the rest by the recurrence. -/
def Obligations.ScheduleRecurrence : Prop :=
  ∀ blk : Vector Byte 64,
    (schedule blk).length = 80
    ∧ (∀ t, t < 16 → (schedule blk).getD t 0#32
        = (blk.toList.getD (4 * t) 0#8 ++ blk.toList.getD (4 * t + 1) 0#8 ++ blk.toList.getD (4 * t + 2) 0#8
            ++ blk.toList.getD (4 * t + 3) 0#8 : BitVec 32))
    ∧ (∀ t, 16 ≤ t → t < 80 → (schedule blk).getD t 0#32
        = rotl ((schedule blk).getD (t - 3) 0#32 ^^^ (schedule blk).getD (t - 8) 0#32
            ^^^ (schedule blk).getD (t - 14) 0#32 ^^^ (schedule blk).getD (t - 16) 0#32) 1)

/-- R74: the word that round t reads from the circular workspace is W[t]. -/
def Obligations.CircularScheduleEqualsSchedule : Prop :=
  ∀ (blk : Vector Byte 64) (t : Nat), t < 80 → circularWord t (circularAt blk t) = (schedule blk).getD t 0#32

/-- R76: the all-zero block has the all-zero schedule, and the expansion is linear over xor. -/
def Obligations.ScheduleIsLinear : Prop :=
  schedule (Vector.replicate 64 0#8) = List.replicate 80 0#32
  ∧ ∀ (a b : Vector Byte 64) (t : Nat), t < 80 →
      (schedule (Vector.ofFn fun i => a[i] ^^^ b[i])).getD t 0#32
        = (schedule a).getD t 0#32 ^^^ (schedule b).getD t 0#32

/-! ## The compression transform (42_compression.md) -/

/-- R82 to R85: the in-place forms of choose and majority, and parity in groups 1 and 3. -/
def Obligations.MixingFunctionForms : Prop :=
  ∀ b c d : Word,
    mix 0 b c d = (b &&& (c ^^^ d)) ^^^ d
    ∧ mix 1 b c d = b ^^^ c ^^^ d
    ∧ mix 2 b c d = ((b ||| c) &&& d) ||| (b &&& c)
    ∧ mix 3 b c d = b ^^^ c ^^^ d

/-- R87: the source's in-place round, under its five bindings, is the round of R86. -/
def Obligations.InPlaceRoundEqualsRound : Prop :=
  ∀ (t : Nat) (wt : Word) (s : Working),
    renameVars ((t + 1) % 5) (inPlaceRound t wt s) = sha1Round t wt (renameVars (t % 5) s)
    ∧ roundZW t wt s = { s with e := roundT t wt s, b := rotl s.b 30 }

/-- R89 to R92: the transform is initialisation, rounds 0 to 79 in order on W[0..79], and the feed-forward. -/
def Obligations.TransformIsEightyRounds : Prop :=
  ∀ (h : Chain) (blk : Vector Byte 64) (v : Nat → Working),
    v 0 = workingOf h →
    (∀ t, t < 80 → v (t + 1) = sha1Round t ((schedule blk).getD t 0#32) (v t)) →
      transform h blk = { h0 := h.h0 + (v 80).a, h1 := h.h1 + (v 80).b, h2 := h.h2 + (v 80).c,
                          h3 := h.h3 + (v 80).d, h4 := h.h4 + (v 80).e }

/-- R73, R74, R87: the transform over the circular workspace with in-place rounds computes the same chaining state. -/
def Obligations.InPlaceTransformEqualsTransform : Prop :=
  ∀ (h : Chain) (blk : Vector Byte 64), transformInPlace h blk = transform h blk

/-! ## The counter and the absorb step (43_streaming_buffer.md) -/

/-- R96: the two-word counter update is addition of 8n modulo 2^64. -/
def Obligations.CounterAddIsSixtyFourBitAddition : Prop :=
  (∀ hi lo n : Word, ((counterAdd hi lo n).1 ++ (counterAdd hi lo n).2 : BitVec 64)
      = (hi ++ lo : BitVec 64) + BitVec.ofNat 64 (8 * n.toNat))
  ∧ counterAdd 0#32 0xFFFFFFF8#32 1#32 = (1#32, 0#32)

/-- R101: an absorb of n bytes at fill level j runs ⌊(j+n)/64⌋ transforms and leaves FILL = (j+n) mod 64. -/
def Obligations.AbsorbTransformCount : Prop :=
  ∀ (s : State) (data : List Byte), data.length < 2 ^ 32 →
    (s.absorbBytes data).transformsRun = s.transformsRun + (s.fill.toNat + data.length) / 64
    ∧ (s.absorbBytes data).fill.toNat = (s.fill.toNat + data.length) % 64

/-- R102: two absorbs leave the same H, COUNT and BUF[0..FILL-1] as one; the counter also beyond one frame's length. -/
def Obligations.ChunkingInvariance : Prop :=
  ∀ (s : State) (a b : List Byte), a.length < 2 ^ 32 → b.length < 2 ^ 32 →
    ((s.absorbBytes a).absorbBytes b).count = s.count + BitVec.ofNat 64 (8 * (a ++ b).length)
    ∧ ((a ++ b).length < 2 ^ 32 →
        ((s.absorbBytes a).absorbBytes b).h = (s.absorbBytes (a ++ b)).h
        ∧ ((s.absorbBytes a).absorbBytes b).count = (s.absorbBytes (a ++ b)).count
        ∧ ((s.absorbBytes a).absorbBytes b).pending = (s.absorbBytes (a ++ b)).pending)

/-- R99: the source's three-part absorb gives the H, COUNT, FILL and BUF[0..FILL-1] of the normative one, with the same
transforms. -/
def Obligations.ThreePartAbsorbEqualsLoop : Prop :=
  ∀ (s : State) (data : List Byte), data.length < 2 ^ 32 →
    (s.absorbBytesDirect data).h = (s.absorbBytes data).h
    ∧ (s.absorbBytesDirect data).count = (s.absorbBytes data).count
    ∧ (s.absorbBytesDirect data).fill = (s.absorbBytes data).fill
    ∧ (s.absorbBytesDirect data).pending = (s.absorbBytes data).pending
    ∧ (s.absorbBytesDirect data).transformsRun = (s.absorbBytes data).transformsRun

/-! ## RESET -/

/-- R107: RESET completes in every phase with exactly these values and status 0x00, everything else unchanged (its frame);
a second RESET changes nothing but the responses; and no other command leaves FINALIZED. -/
def Obligations.ResetCompletes : Prop :=
  encode .reset = [0x01#8]
  ∧ (∀ s : State, exec .reset s = .next { s with
      h := { h0 := 0x67452301#32, h1 := 0xEFCDAB89#32, h2 := 0x98BADCFE#32, h3 := 0x10325476#32, h4 := 0xC3D2E1F0#32 }
      countHi := 0#32
      countLo := 0#32
      buf := Vector.replicate 64 0#8
      digest := Vector.replicate 20 0#8
      phase := .idle
      responseChannel := s.responseChannel ++ [0x00#8] })
  ∧ (∀ s : State, ∃ t u : State, exec .reset s = .next t ∧ exec .reset t = .next u
      ∧ u = { t with responseChannel := t.responseChannel ++ [0x00#8] })
  ∧ ∀ (s : State) (i : Instr), s.phase = .finalized → i ≠ .reset →
      ∃ t : State, exec i s = .next t ∧ t.phase = .finalized

/-- R108: RESET and then FINALIZE, from any state, gives the digest of the empty message. -/
def Obligations.ResetThenFinalizeGivesEmptyDigest : Prop :=
  ∀ s : State, ∃ t u : State, exec .reset s = .next t ∧ exec .finalize t = .next u
    ∧ u.digest.toList = [0xDA#8, 0x39#8, 0xA3#8, 0xEE#8, 0x5E#8, 0x6B#8, 0x4B#8, 0x0D#8, 0x32#8, 0x55#8,
                         0xBF#8, 0xEF#8, 0x95#8, 0x60#8, 0x18#8, 0x90#8, 0xAF#8, 0xD8#8, 0x07#8, 0x09#8]

/-! ## ABSORB -/

/-- R109, R98: outside FINALIZED an ABSORB of at least one byte completes: H is H after the full blocks of BUF[0..FILL-1]
followed by DATA, BUF[0..FILL-1] the bytes left over, COUNT grows by 8·LEN, PHASE becomes ABSORBING, status 0x08. -/
def Obligations.AbsorbCompletes : Prop :=
  ∀ (s : State) (len : Word) (data : List Byte),
    s.phase ≠ .finalized → data.length = len.toNat → 0 < len.toNat →
      ∃ t : State, exec (.absorb len data) s = .next t
        ∧ t.h = hashStream s.h (s.pending ++ data)
        ∧ t.pending = streamTail (s.pending ++ data)
        ∧ t.count = s.count + BitVec.ofNat 64 (8 * len.toNat)
        ∧ t.transformsRun = s.transformsRun + (s.fill.toNat + len.toNat) / 64
        ∧ t.phase = .absorbing
        ∧ t.responseChannel = s.responseChannel ++ [0x08#8]

/-- R109 (frame): what an ABSORB of at least one byte leaves alone; while no block completes, H too (R98), and the transients,
which is the model's choice (no rule fixes their value: notes/assumptions/4.md). -/
def Obligations.AbsorbFrame : Prop :=
  ∀ (s : State) (len : Word) (data : List Byte),
    s.phase ≠ .finalized → data.length = len.toNat → 0 < len.toNat →
      ∃ t : State, exec (.absorb len data) s = .next t
        ∧ t.config = s.config ∧ t.digest = s.digest ∧ t.dec = s.dec ∧ t.commandChannel = s.commandChannel
        ∧ t.hardResetLine = s.hardResetLine ∧ t.misuseSeen = s.misuseSeen
        ∧ (∀ i, i < s.fill.toNat → s.fill.toNat + len.toNat < 64 → t.buf.toList.getD i 0#8 = s.buf.toList.getD i 0#8)
        ∧ (s.fill.toNat + len.toNat < 64 → t.h = s.h ∧ t.transients = s.transients)

/-- R109: LEN = 0 outside FINALIZED is a no-op with status OK: only the response is new. -/
def Obligations.EmptyAbsorbIsNoOp : Prop :=
  ∀ s : State, s.phase ≠ .finalized →
    exec (.absorb 0#32 []) s = .next { s with
      responseChannel := s.responseChannel ++ [if s.phase = .idle then 0x00#8 else 0x08#8] }

/-- R126: ABSORB in FINALIZED, for any LEN and DATA, changes nothing and answers 0x11. -/
def Obligations.AbsorbAfterFinalIsReported : Prop :=
  ∀ (s : State) (len : Word) (data : List Byte), s.phase = .finalized →
    exec (.absorb len data) s = .next { s with
      responseChannel := s.responseChannel ++ [0x11#8]
      misuseSeen := true }

/-- R102, R19, R21: an ABSORB extends the byte stream that the state holds by its DATA. -/
def Obligations.AbsorbExtendsTheStream : Prop :=
  ∀ (s : State) (stream : List Byte) (len : Word) (data : List Byte),
    s.Holds stream → s.phase ≠ .finalized → data.length = len.toNat →
      ∃ t : State, exec (.absorb len data) s = .next t ∧ t.Holds (stream ++ data)

/-! ## FINALIZE -/

/-- R115: Z = (55 - j) mod 64 zero bytes, 9 + Z bytes of padding, 1 or 2 transforms, FILL = 0 after it; and the padding is
one absorb of 0x80, the zeros and the length field. -/
def Obligations.PaddingIsOneAbsorb : Prop :=
  ∀ (s : State) (lf : List Byte), lf.length = 8 →
    let z := (55 + 64 - s.fill.toNat) % 64
    let whole := s.absorbBytes ([0x80#8] ++ List.replicate z 0#8 ++ lf)
    ([0x80#8] ++ List.replicate z 0#8 ++ lf).length = 9 + z
    ∧ (s.pad lf).h = whole.h ∧ (s.pad lf).count = whole.count ∧ (s.pad lf).pending = whole.pending
    ∧ (s.pad lf).transformsRun = s.transformsRun + (if s.fill.toNat ≤ 55 then 1 else 2)
    ∧ (s.pad lf).fill = 0#6

/-- R113, R116 to R118: outside FINALIZED, FINALIZE completes: DIGEST is the big-endian H after the padded stream, with the
length field captured before the padding; COUNT counts the padding; FILL = 0; PHASE is FINALIZED; status 0x10. H
and COUNT after FINALIZE are what R117 leaves, which an implementation may wipe (notes/assumptions/7.md). -/
def Obligations.FinalizeCompletes : Prop :=
  ∀ s : State, s.phase ≠ .finalized →
    ∃ t : State, exec .finalize s = .next t
      ∧ t.h = hashStream s.h (s.pending ++ paddingBytes s.fill.toNat (len64Store s.countHi s.countLo))
      ∧ t.digest = digestBytes t.h
      ∧ t.count = s.count + BitVec.ofNat 64 (8 * (9 + zeroBytes s.fill.toNat))
      ∧ t.fill = 0#6
      ∧ t.phase = .finalized
      ∧ t.transformsRun = s.transformsRun + (if s.fill.toNat ≤ 55 then 1 else 2)
      ∧ t.responseChannel = s.responseChannel ++ [0x10#8]

/-- R118, R93 (frame): what FINALIZE leaves alone, and the transients after its transforms: zero, or free values when they
are not wiped (the model's fields: notes/assumptions/3.md, 4.md). -/
def Obligations.FinalizeFrame : Prop :=
  ∀ s : State, s.phase ≠ .finalized →
    ∃ t : State, exec .finalize s = .next t
      ∧ t.config = s.config ∧ t.dec = s.dec ∧ t.commandChannel = s.commandChannel
      ∧ t.hardResetLine = s.hardResetLine ∧ t.misuseSeen = s.misuseSeen
      ∧ t.transients = transientsAfter s.config s.freeIndex

/-- R127: FINALIZE in FINALIZED changes nothing, DIGEST included, and answers 0x12. -/
def Obligations.FinalizeTwiceIsReported : Prop :=
  ∀ s : State, s.phase = .finalized →
    exec .finalize s = .next { s with
      responseChannel := s.responseChannel ++ [0x12#8]
      misuseSeen := true }

/-- R1, R113 to R116: FINALIZE in a state that holds a message gives the SHA-1 digest of that message. -/
def Obligations.FinalizeGivesTheMessageDigest : Prop :=
  ∀ (s : State) (message : List Byte), s.Holds message → s.phase ≠ .finalized →
    ∃ t : State, exec .finalize s = .next t ∧ t.digest = sha1 message

/-- R146, R102, R104: from any state, RESET, any ABSORB frames and FINALIZE give the SHA-1 digest of all their bytes in order. -/
def Obligations.MessageDigestIsSha1 : Prop :=
  ∀ (s : State) (pieces : List (List Byte)), (∀ p ∈ pieces, p.length ≤ Config.maxFrameLen) →
    ∃ t : State, execAll ([.reset] ++ pieces.map absorbOf ++ [.finalize]) s = .next t
      ∧ t.phase = .finalized
      ∧ t.digest = sha1 pieces.flatten

/-- R61: the digest of a string sent by ABSORB.CHUNKED does not depend on the piece size. -/
def Obligations.ChunkedDigestIndependentOfPieceSize : Prop :=
  ∀ (s : State) (k : Nat) (data : List Byte), 0 < k → k ≤ Config.maxFrameLen →
    ∃ t : State, execAll ([.reset] ++ (chunks k data).map absorbOf ++ [.finalize]) s = .next t
      ∧ t.digest = sha1 data

/-! ## GET_DIGEST -/

/-- R120, R121, R128: in FINALIZED, GET_DIGEST answers 0x10 and the 20 digest bytes, DIGEST[0] first, and changes nothing;
repeated any number of times it answers the same 21 bytes each time. In IDLE it answers 0x03 and in ABSORBING 0x0B, with no
digest byte and no change. -/
def Obligations.GetDigestCompletes : Prop :=
  (∀ s : State, s.phase = .finalized →
      exec .getDigest s = .next { s with responseChannel := s.responseChannel ++ (0x10#8 :: s.digest.toList) })
  ∧ (∀ (s : State) (n : Nat), s.phase = .finalized →
      execAll (List.replicate n .getDigest) s = .next { s with
        responseChannel := s.responseChannel ++ (List.replicate n (0x10#8 :: s.digest.toList)).flatten })
  ∧ ∀ s : State, s.phase ≠ .finalized →
      exec .getDigest s = .next { s with
        responseChannel := s.responseChannel ++ [if s.phase = .idle then 0x03#8 else 0x0B#8]
        misuseSeen := true }

/-! ## Illegal opcodes and errors (60_exceptions.md) -/

/-- R129, R52: the meaning of an illegal byte completes in every state: no state change, E_ILLEGAL_OPCODE with the phase. -/
def Obligations.IllegalCompletes : Prop :=
  ∀ (s : State) (op : Byte),
    exec (.illegal op) s = .next { s with
      responseChannel := s.responseChannel ++
        [match s.phase with | .idle => 0x04#8 | .absorbing => 0x0C#8 | .finalized => 0x14#8]
      misuseSeen := true }

/-- R129: an opcode byte 0x00 or 0x05 to 0xFF at a frame boundary: that one byte is consumed, nothing else changes, and the
error is reported. -/
def Obligations.IllegalOpcodeConsumesOneByte : Prop :=
  ∀ (s : State) (op : Byte) (rest : List Byte),
    s.hardResetLine = false → s.dec = .waitOp → s.commandChannel = op :: rest → (op = 0x00#8 ∨ 0x05#8 ≤ op) →
      step s = .next { s with
        commandChannel := rest
        responseChannel := s.responseChannel ++ [statusByte .illegalOpcode s.phase]
        misuseSeen := true }

/-- R124: a frame with an error is consumed whole, changes no architectural state, emits one status byte with the unchanged
phase, and the decoder stands at the next frame. -/
def Obligations.MisuseChangesNothing : Prop :=
  ∀ (s : State) (i : Instr) (rest : List Byte),
    s.hardResetLine = false → readFrame s.dec s.commandChannel = .complete i rest → codeOf i s.phase ≠ .ok →
      step s = .next { s with
        dec := .waitOp
        commandChannel := rest
        responseChannel := s.responseChannel ++ [statusByte (codeOf i s.phase) s.phase]
        misuseSeen := true }

/-- R53, R54, R55, R131: every frame appends one response to the channel: a status byte with the CODE of the one error
condition, the phase after the frame and zero top bits, and 20 digest bytes after it exactly for GET_DIGEST with OK. -/
def Obligations.OneResponsePerFrame : Prop :=
  ∀ (s : State) (i : Instr), ∃ (t : State) (status : Byte) (more : List Byte),
    exec i s = .next t
    ∧ t.responseChannel = s.responseChannel ++ (status :: more)
    ∧ status.extractLsb' 0 3 = (codeOf i s.phase).bits
    ∧ status.extractLsb' 3 2 = t.phase.bits
    ∧ status.extractLsb' 5 3 = 0#3
    ∧ more = (if i = .getDigest ∧ s.phase = .finalized then s.digest.toList else [])

/-- R133: the ghost flag is set by every non-zero CODE and cleared by nothing. That hard reset keeps it too is the model's
reading of 'cleared by nothing' (notes/assumptions/9.md). -/
def Obligations.MisuseFlagIsNeverCleared : Prop :=
  (∀ (s : State) (i : Instr), ∃ t : State, exec i s = .next t
      ∧ t.misuseSeen = (s.misuseSeen || decide (codeOf i s.phase ≠ .ok)))
  ∧ ∀ s t : State, step s = .next t → s.misuseSeen = true → t.misuseSeen = true

/-! ## Who writes what (10_state.md) -/

/-- R17: apart from RESET, a frame that runs no transform leaves H alone. -/
def Obligations.OnlyResetAndTransformWriteH : Prop :=
  ∀ (s : State) (i : Instr), i ≠ .reset →
    ∃ t : State, exec i s = .next t ∧ (t.transformsRun = s.transformsRun → t.h = s.h)

/-- R23, R116, R122: only RESET and a FINALIZE outside FINALIZED write DIGEST, so in FINALIZED it is immutable until RESET. -/
def Obligations.DigestIsImmutable : Prop :=
  ∀ (s : State) (i : Instr), i ≠ .reset → (i = .finalize → s.phase = .finalized) →
    ∃ t : State, exec i s = .next t ∧ t.digest = s.digest

/-- R22: the writers of PHASE, for every command as the decoder reads it. -/
def Obligations.PhaseWriters : Prop :=
  ∀ (s : State) (i : Instr),
    ∃ t : State, exec i s = .next t ∧ t.phase = match i with
      | .reset => .idle
      | .absorb len _ => if s.phase = .idle ∧ len ≠ 0#32 then .absorbing else s.phase
      | .finalize => .finalized
      | .getDigest => s.phase
      | .illegal _ => s.phase

/-! ## The step, reset and the whole machine -/

/-- R57, R7: when the bytes at the decoder's position make a whole frame, the step is that command's execution, on the state
with the frame consumed and DEC at a frame boundary. -/
def Obligations.StepRunsTheDecodedCommand : Prop :=
  ∀ (s : State) (i : Instr) (rest : List Byte),
    s.hardResetLine = false → readFrame s.dec s.commandChannel = .complete i rest →
      step s = exec i { s with dec := .waitOp, commandChannel := rest }

/-- R57, R150: bytes that do not complete a frame move DEC and nothing else; no response leaves. That this is a step of its
own is the model's reading (notes/assumptions/1.md). -/
def Obligations.PartialFrameOnlyMovesDec : Prop :=
  ∀ (s : State) (d : Dec),
    s.hardResetLine = false → s.commandChannel ≠ [] → readFrame s.dec s.commandChannel = .incomplete d →
      step s = .next { s with dec := d, commandChannel := [] }

/-- R150, R155: with no byte to read there is no step: a stuck state inside a frame, the state of R155 item 1 at a boundary.
The two names for it are the model's (notes/assumptions/2.md). -/
def Obligations.NoByteNoStep : Prop :=
  ∀ s : State, s.hardResetLine = false →
    (s.Stuck → step s = .fault .frameTruncated) ∧ (s.Final → step s = .fault .commandChannelEmpty)

/-- R141: the hard reset step, in any state, also in the middle of a frame: item 1 the values RESET sets, item 2 DEC
at a frame boundary, items 3 and 5 no response byte left or emitted, item 4 the transients zero. -/
def Obligations.HardResetStep : Prop :=
  ∀ s : State, s.hardResetLine = true →
    ∃ t : State, step s = .next t
      ∧ t.h = { h0 := 0x67452301#32, h1 := 0xEFCDAB89#32, h2 := 0x98BADCFE#32, h3 := 0x10325476#32, h4 := 0xC3D2E1F0#32 }
      ∧ t.count = 0#64 ∧ t.buf = Vector.replicate 64 0#8 ∧ t.digest = Vector.replicate 20 0#8 ∧ t.phase = .idle
      ∧ t.dec = .waitOp
      ∧ t.responseChannel = []
      ∧ t.transients = .zero

/-- The model's choice (notes/assumptions/8.md, 9.md; 92_eei_decisions.md D14): the hard reset step also empties the command
channel and deasserts the line, and it keeps the configuration and the bookkeeping fields. -/
def Obligations.HardResetKeepsBookkeeping : Prop :=
  ∀ s : State, s.hardResetLine = true →
    ∃ t : State, step s = .next t
      ∧ t.commandChannel = [] ∧ t.hardResetLine = false
      ∧ t.config = s.config ∧ t.misuseSeen = s.misuseSeen
      ∧ t.transformsRun = s.transformsRun ∧ t.freeIndex = s.freeIndex

/-- R28: the values after hard reset, and after RESET in any state, which leaves the transients and DEC and appends its
status byte to the response channel. -/
def Obligations.ResetValues : Prop :=
  (State.reset.h = { h0 := 0x67452301#32, h1 := 0xEFCDAB89#32, h2 := 0x98BADCFE#32, h3 := 0x10325476#32, h4 := 0xC3D2E1F0#32 }
    ∧ State.reset.countHi = 0#32 ∧ State.reset.countLo = 0#32 ∧ State.reset.fill = 0#6
    ∧ State.reset.buf = Vector.replicate 64 0#8 ∧ State.reset.phase = .idle ∧ State.reset.digest = Vector.replicate 20 0#8
    ∧ State.reset.transients = .zero ∧ State.reset.dec = .waitOp ∧ State.reset.responseChannel = [])
  ∧ ∀ s : State, ∃ t : State, exec .reset s = .next t
    ∧ t.h = State.reset.h ∧ t.countHi = 0#32 ∧ t.countLo = 0#32 ∧ t.fill = 0#6
    ∧ t.buf = State.reset.buf ∧ t.phase = .idle ∧ t.digest = State.reset.digest
    ∧ t.transients = s.transients ∧ t.dec = s.dec ∧ t.responseChannel = s.responseChannel ++ [0x00#8]

/-- R27, R106: the invariant holds after hard reset. -/
def Obligations.ResetMeetsTheInvariant : Prop :=
  State.reset.Inv

/-- R27, R106: every step keeps the invariant, from every state that meets it. -/
def Obligations.StepKeepsTheInvariant : Prop :=
  ∀ s t : State, s.Inv → step s = .next t → t.Inv

/-- R9, R25, R28: no step changes WIPE_TRANSIENTS, and with it true the transients stay zero between frames. That they and
the parameter are fields of the state is the model's choice (notes/assumptions/4.md, 5.md). -/
def Obligations.WipedTransientsStayZero : Prop :=
  ∀ s t : State, step s = .next t →
    t.config = s.config
    ∧ (s.config.wipeTransients = true → s.transients = .zero → t.transients = .zero)

/-- R130, R131: no command faults or is refused, in any state. R12, R57, R150: a step is never refused, and it stops only for
want of a byte. That it then answers the fault `noByte`, and that bytes which do not complete a frame are a step of their own,
is the model's reading (notes/assumptions/2.md, 1.md). -/
def Obligations.EveryCommandExecutes : Prop :=
  (∀ (s : State) (i : Instr), ∃ t : State, exec i s = .next t)
  ∧ ∀ s : State, (∃ t : State, step s = .next t)
      ∨ (s.hardResetLine = false ∧ s.commandChannel = [] ∧ step s = .fault (noByte s.dec))

/-- R42, R152: a step that is no hard reset only appends to the response channel, and consumes the command channel in order. -/
def Obligations.ChannelsAreInOrder : Prop :=
  ∀ s t : State, s.hardResetLine = false → step s = .next t →
    (∃ r : List Byte, t.responseChannel = s.responseChannel ++ r)
    ∧ ∃ used : List Byte, used ≠ [] ∧ s.commandChannel = used ++ t.commandChannel

/-- R42, R57, R152: a command channel that holds whole frames is executed frame by frame, one step each, in order, and the
state reached is as R155 item 1 asks; item 2 is `RunsReadToTheEndAreFinal`'s. -/
def Obligations.RunOfWholeFrames : Prop :=
  ∀ (s : State) (frames : List Instr),
    s.hardResetLine = false → s.dec = .waitOp → (∀ i ∈ frames, i.wellFormed = true) →
    s.commandChannel = frames.flatMap encode →
      ∃ t : State, Host.Core.run Sys2Proof.core frames.length s = .next t
        ∧ execAll frames { s with commandChannel := [] } = .next t
        ∧ t.Final

/-- R16, R29, R117: states that a host cannot tell apart stay so under every step: H, COUNT and BUF reach it only through
the digest, and BUF[FILL..63], the transients and, in FINALIZED, H, COUNT and BUF never do. -/
def Obligations.HiddenStateIsUnobservable : Prop :=
  ∀ s u : State, SameForHost s u → SameOutcome (step s) (step u)

/-! ## Progress and final runs (70_reset_and_hazards.md R154, R155) -/

/-- R154, D26: under weak fairness of the block (the assumption R154 names) every frame that stands whole on the command
channel is eventually executed, after the frames before it, one step each, and its response is emitted; a hard reset in
between, which discards it (R141), is the only other case. No bound is set on when. -/
def Obligations.CompleteFramesAreEventuallyExecuted : Prop :=
  ∀ (run : Nat → State) (act : Nat → RunAction), Execution run act → WeaklyFair run act →
    ∀ (n k : Nat) (i : Instr), (framesOf (run n).dec (run n).commandChannel)[k]? = some i →
      ∃ m, n ≤ m
        ∧ (∀ j, n ≤ j → j < m → (run j).hardResetLine = false)
        ∧ ((run m).hardResetLine = true
          ∨ (act m = .block ∧ blockSteps act n m = k
            ∧ ∃ (rest more : List Byte), (run m).fetch = .complete i rest
              ∧ exec i ((run m).consumed rest) = .next (run (m + 1))
              ∧ (run (m + 1)).responseChannel
                  = (run m).responseChannel ++ statusByte (codeOf i (run m).phase) (run (m + 1)).phase :: more))

/-- R155, R152: in every run, whatever the environment does, a byte stream read to its end at a frame boundary has had one
response per frame, so the run is final, and never more responses than frames; a run without a hard reset is final exactly
when its state is at a frame boundary with no byte left. Reads and responses are counted beside the run
(notes/assumptions/21.md). -/
def Obligations.RunsReadToTheEndAreFinal : Prop :=
  ∀ (s : State) (as : List RunAction) (r : RunLog), RunLog.play as (.start s) = some r →
    (r.read = r.earlierBytes + r.sent.length → r.state.dec = .waitOp → r.Final)
    ∧ r.responses ≤ r.frames
    ∧ (s.hardResetLine = false → RunAction.assertHardReset ∉ as → (r.Final ↔ r.state.Final))

/-- R155, R141: a run in which a hard reset discards bytes that the block has not consumed is not final, whatever follows. That
a hard reset discards unread command bytes is the model's choice (notes/assumptions/8.md, DESIGN CHOICE, after
92_eei_decisions.md D14), and that these bytes count as not consumed is its reading of R155 (notes/assumptions/21.md,
DEDUCED); neither rule says so. -/
def Obligations.DiscardedBytesAreNeverFinal : Prop :=
  ∀ (s : State) (as bs : List RunAction) (r r' : RunLog),
    RunLog.play as (.start s) = some r → r.state.hardResetLine = true → r.state.commandChannel ≠ [] →
    RunLog.play (.block :: bs) r = some r' → ¬ r'.Final
end

