-- ==== Sys2Proof/Laws/Absorb.lean ====
section
/-! SUPPORT. The absorb loop: how it composes, where it leaves j, and how many transforms it runs. -/

namespace Sys2Proof.Machine

@[simp] theorem absorbLoop_nil (f : Filling) : absorbLoop f [] = f := rfl

@[simp] theorem absorbLoop_cons (f : Filling) (b : Byte) (bs : List Byte) :
    absorbLoop f (b :: bs) = absorbLoop (absorbByte f b) bs := rfl

/-- Two loops in a row are one loop (43_streaming_buffer.md R98). -/
theorem absorbLoop_append (a b : List Byte) : ∀ f : Filling, absorbLoop f (a ++ b) = absorbLoop (absorbLoop f a) b := by
  induction a with
  | nil => intro f; rfl
  | cons x xs ih => intro f; simp [ih]

/-- A byte that does not complete a block. -/
theorem absorbByte_of_lt {f : Filling} (b : Byte) (h : f.j + 1 < 64) :
    absorbByte f b = { f with buf := f.buf.setIfInBounds f.j b, j := f.j + 1 } := by
  simp [absorbByte, show f.j + 1 ≠ 64 by omega]

/-- The byte that completes a block. -/
theorem absorbByte_of_eq {f : Filling} (b : Byte) (h : f.j + 1 = 64) :
    absorbByte f b = { h := transform f.h (f.buf.setIfInBounds f.j b), buf := f.buf.setIfInBounds f.j b,
                       j := 0, runs := f.runs + 1 } := by
  simp [absorbByte, h]

theorem absorbByte_j {f : Filling} (b : Byte) (h : f.j < 64) : (absorbByte f b).j = (f.j + 1) % 64 := by
  by_cases h1 : f.j + 1 = 64
  · simp [absorbByte_of_eq b h1, h1]
  · rw [absorbByte_of_lt b (by omega)]; simp; omega

theorem absorbByte_runs {f : Filling} (b : Byte) (h : f.j < 64) :
    (absorbByte f b).runs = f.runs + (f.j + 1) / 64 := by
  by_cases h1 : f.j + 1 = 64
  · simp [absorbByte_of_eq b h1, h1]
  · rw [absorbByte_of_lt b (by omega)]; simp; omega

/-- Where the loop leaves j. -/
theorem absorbLoop_j (data : List Byte) : ∀ {f : Filling}, f.j < 64 →
    (absorbLoop f data).j = (f.j + data.length) % 64 := by
  induction data with
  | nil => intro f h; simp; omega
  | cons b bs ih =>
    intro f h
    have hj := absorbByte_j b h
    rw [absorbLoop_cons, ih (by omega), hj]
    simp only [List.length_cons]
    omega

/-- How many transforms the loop runs. -/
theorem absorbLoop_runs (data : List Byte) : ∀ {f : Filling}, f.j < 64 →
    (absorbLoop f data).runs = f.runs + (f.j + data.length) / 64 := by
  induction data with
  | nil => intro f h; simp; omega
  | cons b bs ih =>
    intro f h
    have hj := absorbByte_j b h
    rw [absorbLoop_cons, ih (by omega), absorbByte_runs b h, hj]
    simp only [List.length_cons]
    omega

/-- While no block completes, the loop only copies (R99). -/
theorem absorbLoop_of_short (data : List Byte) : ∀ {f : Filling}, f.j + data.length < 64 →
    absorbLoop f data = { f with buf := copyInto f.buf f.j data, j := f.j + data.length } := by
  induction data with
  | nil => intro f _; simp [copyInto]
  | cons b bs ih =>
    intro f h
    simp only [List.length_cons] at h
    rw [absorbLoop_cons, absorbByte_of_lt b (by omega), ih (by simp; omega)]
    simp [copyInto]
    omega

/-- The bytes that complete the block: one transform of the filled buffer (R99). -/
theorem absorbLoop_of_full (data : List Byte) : ∀ {f : Filling}, f.j + data.length = 64 → f.j < 64 →
    absorbLoop f data = { h := transform f.h (copyInto f.buf f.j data), buf := copyInto f.buf f.j data,
                          j := 0, runs := f.runs + 1 } := by
  induction data with
  | nil => intro f h h'; simp at h; omega
  | cons b bs ih =>
    intro f h h'
    simp only [List.length_cons] at h
    rw [absorbLoop_cons]
    by_cases h1 : f.j + 1 = 64
    · obtain rfl : bs = [] := List.eq_nil_of_length_eq_zero (by omega)
      simp [absorbByte_of_eq b h1, copyInto]
    · rw [absorbByte_of_lt b (by omega), ih (by simp; omega) (by simp; omega)]
      simp [copyInto]

/-- What copying leaves at each place. -/
theorem copyInto_getElem (data : List Byte) : ∀ (buf : Vector Byte 64) (j i : Nat) (hi : i < 64),
    (copyInto buf j data)[i] = if j ≤ i ∧ i < j + data.length then data.getD (i - j) 0#8 else buf[i] := by
  induction data with
  | nil => intro buf j i hi; simp [copyInto]
  | cons b bs ih =>
    intro buf j i hi
    rw [copyInto, ih, Vector.getElem_setIfInBounds]
    by_cases h1 : j = i
    · subst h1; simp
    · by_cases h2 : j + 1 ≤ i
      · have : i - j = (i - (j + 1)) + 1 := by omega
        simp only [h1, this, List.getD_cons_succ, List.length_cons, if_false]
        congr 1
        simp; omega
      · simp [h1, h2]; omega

@[simp] theorem filling_h (s : State) : s.filling.h = s.h := rfl
@[simp] theorem filling_buf (s : State) : s.filling.buf = s.buf := rfl
@[simp] theorem filling_j (s : State) : s.filling.j = s.fill.toNat := rfl
@[simp] theorem filling_runs (s : State) : s.filling.runs = 0 := rfl

/-- The fill level in the updated counter (10_state.md R20, 43_streaming_buffer.md R96). -/
theorem counterAdd_fill (hi lo n : Word) :
    ((counterAdd hi lo n).2.extractLsb' 3 6).toNat = ((lo.extractLsb' 3 6).toNat + n.toNat) % 64 := by
  have hl := lo.isLt
  have hn := n.isLt
  simp [counterAdd, BitVec.extractLsb'_toNat, BitVec.toNat_add, BitVec.toNat_shiftLeft, Nat.shiftLeft_eq,
    Nat.shiftRight_eq_div_pow]
  omega

/-- The counter update leaves COUNT_LO[2:0] (R106). -/
theorem counterAdd_low (hi lo n : Word) : (counterAdd hi lo n).2.extractLsb' 0 3 = lo.extractLsb' 0 3 := by
  have hl := lo.isLt
  have hn := n.isLt
  apply BitVec.eq_of_toNat_eq
  simp [counterAdd, BitVec.extractLsb'_toNat, BitVec.toNat_add, BitVec.toNat_shiftLeft, Nat.shiftLeft_eq]

/-- Absorbing nothing changes nothing (R105, R109). -/
@[simp] theorem absorbBytes_nil (s : State) : s.absorbBytes [] = s := by
  simp [State.absorbBytes, counterAdd, byteCount]

end Sys2Proof.Machine
end

