-- ==== Sys2Proof/Laws/Decode.lean ====
section
/-! SUPPORT. The small lemmas of the decoder and the encoder. -/

namespace Sys2Proof

@[simp] theorem readFrame_nil (d : Dec) : readFrame d [] = .incomplete d := rfl

theorem readFrame_cons_more {d d' : Dec} {b : Byte} (bs : List Byte) (h : feed d b = .more d') :
    readFrame d (b :: bs) = readFrame d' bs := by
  simp [readFrame, h]

theorem readFrame_cons_frame {d : Dec} {b : Byte} {i : Instr} (bs : List Byte) (h : feed d b = .frame i) :
    readFrame d (b :: bs) = .complete i bs := by
  simp [readFrame, h]

/-- The LEN field is its four bytes put together, most significant first (R50). -/
theorem lenField_eq_append (b1 b2 b3 b4 : Byte) :
    lenField b1 b2 b3 b4 = (b1 ++ b2 ++ b3 ++ b4 : BitVec 32) := by
  apply BitVec.eq_of_getLsbD_eq
  intro i hi
  simp only [lenField, BitVec.getLsbD_or, BitVec.getLsbD_shiftLeft, BitVec.getLsbD_setWidth]
  have e : (b1 ++ b2 ++ b3 ++ b4 : BitVec 32).getLsbD i = (b1 ++ b2 ++ b3 ++ b4).getLsbD i := rfl
  rw [e]
  simp only [BitVec.getLsbD_append]
  have k1 : i - 8 < 32 := by omega
  have k2 : i - 16 < 32 := by omega
  have k3 : i - 24 < 32 := by omega
  by_cases h1 : i < 8
  · simp [*, show i < 16 by omega, show i < 24 by omega]
  by_cases h2 : i < 16
  · simp [*, show i < 24 by omega, show i - 8 < 8 by omega, BitVec.getLsbD_of_ge b4 i (by omega)]
  by_cases h3 : i < 24
  · simp [*, show i - 16 < 8 by omega, show ¬ i - 8 < 8 by omega, BitVec.getLsbD_of_ge b4 i (by omega),
      BitVec.getLsbD_of_ge b3 (i - 8) (by omega), Nat.sub_sub]
  · simp [*, show ¬ i - 16 < 8 by omega, show ¬ i - 8 < 8 by omega, BitVec.getLsbD_of_ge b4 i (by omega),
      BitVec.getLsbD_of_ge b3 (i - 8) (by omega), BitVec.getLsbD_of_ge b2 (i - 16) (by omega), Nat.sub_sub]

/-- A word is its four bytes put together, most significant first. -/
theorem word_eq_append (w : Word) :
    (w.extractLsb' 24 8 ++ w.extractLsb' 16 8 ++ w.extractLsb' 8 8 ++ w.extractLsb' 0 8 : BitVec 32) = w := by
  apply BitVec.eq_of_getLsbD_eq
  intro i hi
  have e : (w.extractLsb' 24 8 ++ w.extractLsb' 16 8 ++ w.extractLsb' 8 8 ++ w.extractLsb' 0 8 : BitVec 32).getLsbD i
      = (w.extractLsb' 24 8 ++ w.extractLsb' 16 8 ++ w.extractLsb' 8 8 ++ w.extractLsb' 0 8).getLsbD i := rfl
  rw [e]
  simp only [BitVec.getLsbD_append, BitVec.getLsbD_extractLsb']
  by_cases h1 : i < 8
  · simp [*]
  by_cases h2 : i < 16
  · simp [*, show i - 8 < 8 by omega, show 8 + (i - 8) = i by omega]
  by_cases h3 : i < 24
  · simp [*, show i - 16 < 8 by omega, show ¬ i - 8 < 8 by omega, Nat.sub_sub, show 16 + (i - 16) = i by omega]
  · simp [*, show ¬ i - 16 < 8 by omega, show ¬ i - 8 < 8 by omega, Nat.sub_sub, show i - 24 < 8 by omega,
      show 24 + (i - 24) = i by omega]

/-- The encoder's LEN bytes assemble to LEN (R48, R50). -/
theorem lenField_of_bytes (len : Word) :
    lenField (len.extractLsb' 24 8) (len.extractLsb' 16 8) (len.extractLsb' 8 8) (len.extractLsb' 0 8) = len := by
  rw [lenField_eq_append, word_eq_append]

/-- The value of the LEN field (R50). -/
theorem lenField_toNat (b1 b2 b3 b4 : Byte) :
    (lenField b1 b2 b3 b4).toNat = b1.toNat * 2 ^ 24 + b2.toNat * 2 ^ 16 + b3.toNat * 2 ^ 8 + b4.toNat := by
  have e : (lenField b1 b2 b3 b4).toNat = (b1 ++ b2 ++ b3 ++ b4).toNat := by rw [lenField_eq_append]
  rw [e, BitVec.toNat_append, BitVec.toNat_append, BitVec.toNat_append,
    ← Nat.shiftLeft_add_eq_or_of_lt b4.isLt, ← Nat.shiftLeft_add_eq_or_of_lt b3.isLt,
    ← Nat.shiftLeft_add_eq_or_of_lt b2.isLt]
  simp only [Nat.shiftLeft_eq]
  omega

@[simp] theorem lenOfBytes_four (b1 b2 b3 b4 : Byte) : lenOfBytes [b1, b2, b3, b4] = lenField b1 b2 b3 b4 := rfl

/-- Every byte the decoder takes keeps DEC at a position of R26 and completes only well-formed commands. -/
theorem feed_wellFormed {d : Dec} (b : Byte) (h : d.wellFormed = true) :
    match feed d b with
    | .more d' => d'.wellFormed = true
    | .frame i => i.wellFormed = true := by
  cases d with
  | waitOp =>
    simp only [feed, feedOp]
    split_ifs <;> simp_all [Dec.wellFormed, Instr.wellFormed, commandOpcode]
  | waitLen acc =>
    simp only [Dec.wellFormed, decide_eq_true_eq] at h
    simp only [feed, feedLen]
    split_ifs with h1 h2
    · simp_all [Dec.wellFormed]; omega
    · simp [Instr.wellFormed, h2]
    · simp only [Dec.wellFormed, List.length_nil, decide_eq_true_eq]
      exact Nat.pos_of_ne_zero fun hz => h2 (BitVec.eq_of_toNat_eq (by simpa using hz))
  | waitData len got =>
    simp only [Dec.wellFormed, decide_eq_true_eq] at h
    simp only [feed, feedData]
    split_ifs with h1
    · simp_all [Dec.wellFormed]
    · simp_all [Instr.wellFormed]; omega

/-- The same of any number of bytes. -/
theorem readFrame_wellFormed (bytes : List Byte) : ∀ {d : Dec}, d.wellFormed = true →
    match readFrame d bytes with
    | .incomplete d' => d'.wellFormed = true
    | .complete i _ => i.wellFormed = true := by
  induction bytes with
  | nil => intro d h; simpa using h
  | cons b bs ih =>
    intro d h
    have hb := feed_wellFormed b h
    cases hf : feed d b with
    | more d' => rw [readFrame_cons_more bs hf]; exact ih (by simpa [hf] using hb)
    | frame i => rw [readFrame_cons_frame bs hf]; simpa [hf] using hb

/-- Reading from inside the DATA: the bytes still missing complete the frame (R57, R58). -/
theorem readFrame_waitData (len : Word) : ∀ (missing got rest : List Byte), missing ≠ [] →
    got.length + missing.length = len.toNat →
      readFrame (.waitData len got) (missing ++ rest) = .complete (.absorb len (got ++ missing)) rest := by
  intro missing
  induction missing with
  | nil => intro _ _ h; exact absurd rfl h
  | cons b bs ih =>
    intro got rest _ hl
    simp only [List.length_cons] at hl
    cases bs with
    | nil =>
      exact readFrame_cons_frame _ (by simp only [feed, feedData]; rw [if_neg (by simp at hl ⊢; omega)])
    | cons c cs =>
      have hf : feed (.waitData len got) b = .more (.waitData len (got ++ [b])) := by
        simp only [feed, feedData]
        rw [if_pos (by simp at hl ⊢; omega)]
      rw [List.cons_append, readFrame_cons_more _ hf, ih (got ++ [b]) rest (by simp) (by simp at hl ⊢; omega)]
      simp

/-! The whole frames that bytes hold: `framesOf` is `readFrame` again and again. -/

@[simp] theorem framesOf_nil (d : Dec) : framesOf d [] = [] := rfl

/-- Inside a frame the decoder's position stands for the bytes already read: cutting the byte stream there loses no frame. -/
theorem framesOf_append_of_incomplete (as bs : List Byte) : ∀ {d d' : Dec}, readFrame d as = .incomplete d' →
    framesOf d (as ++ bs) = framesOf d' bs := by
  induction as with
  | nil => intro d d' h; cases h; rfl
  | cons a as ih =>
    intro d d' h
    cases hf : feed d a with
    | more e => rw [readFrame_cons_more as hf] at h; simpa [framesOf, hf] using ih h
    | frame i => simp [readFrame_cons_frame as hf] at h

/-- A whole frame is the first of them; the others are those of the bytes after it. -/
theorem framesOf_append_of_complete (as bs : List Byte) : ∀ {d : Dec} {i : Instr} {rest : List Byte},
    readFrame d as = .complete i rest → framesOf d (as ++ bs) = i :: framesOf .waitOp (rest ++ bs) := by
  induction as with
  | nil => intro _ _ _ h; simp at h
  | cons a as ih =>
    intro d i rest h
    cases hf : feed d a with
    | more e => rw [readFrame_cons_more as hf] at h; simpa [framesOf, hf] using ih h
    | frame j =>
      simp only [readFrame_cons_frame as hf, FrameRead.complete.injEq] at h
      obtain ⟨rfl, rfl⟩ := h
      simp [framesOf, hf]

/-- Bytes that end before the frame does hold no whole frame. -/
theorem framesOf_of_incomplete {bytes : List Byte} {d d' : Dec} (h : readFrame d bytes = .incomplete d') :
    framesOf d bytes = [] := by
  simpa using framesOf_append_of_incomplete bytes [] h

/-- `framesOf_append_of_complete` with no byte to come. -/
theorem framesOf_of_complete {bytes rest : List Byte} {d : Dec} {i : Instr} (h : readFrame d bytes = .complete i rest) :
    framesOf d bytes = i :: framesOf .waitOp rest := by
  simpa using framesOf_append_of_complete bytes [] h

/-- More bytes leave the frames already whole as they are. -/
theorem framesOf_append_getElem? (as bs : List Byte) : ∀ {d : Dec} {k : Nat} {i : Instr},
    (framesOf d as)[k]? = some i → (framesOf d (as ++ bs))[k]? = some i := by
  induction as with
  | nil => intro _ _ _ h; simp at h
  | cons a as ih =>
    intro d k i h
    cases hf : feed d a with
    | more e =>
      simp only [framesOf, hf, List.cons_append] at h ⊢
      exact ih h
    | frame j =>
      simp only [framesOf, hf, List.cons_append] at h ⊢
      cases k with
      | zero => simpa using h
      | succ k => exact ih (by simpa using h)

/-- What is left of a whole frame's bytes is a suffix of them. -/
theorem readFrame_complete_suffix (bytes : List Byte) : ∀ {d : Dec} {i : Instr} {rest : List Byte},
    readFrame d bytes = .complete i rest → ∃ used : List Byte, used ≠ [] ∧ bytes = used ++ rest := by
  induction bytes with
  | nil => intro _ _ _ h; simp at h
  | cons b bs ih =>
    intro d i rest h
    cases hf : feed d b with
    | more e =>
      rw [readFrame_cons_more bs hf] at h
      obtain ⟨used, -, e⟩ := ih h
      exact ⟨b :: used, by simp, by simp [e]⟩
    | frame j =>
      simp only [readFrame_cons_frame bs hf, FrameRead.complete.injEq] at h
      exact ⟨[b], by simp, by simp [h.2]⟩

end Sys2Proof
end

