-- ==== Sys2Proof/Laws/State.lean ====
section
/-! SUPPORT. One lemma per field of State per update, each true by rfl, so that no proof unfolds a record update. -/

namespace Sys2Proof.Machine

/-! `State.outBytes` -/

@[simp] theorem outBytes_config (bs : List Byte) (s : State) : (s.outBytes bs).config = s.config := rfl
@[simp] theorem outBytes_h (bs : List Byte) (s : State) : (s.outBytes bs).h = s.h := rfl
@[simp] theorem outBytes_countHi (bs : List Byte) (s : State) : (s.outBytes bs).countHi = s.countHi := rfl
@[simp] theorem outBytes_countLo (bs : List Byte) (s : State) : (s.outBytes bs).countLo = s.countLo := rfl
@[simp] theorem outBytes_buf (bs : List Byte) (s : State) : (s.outBytes bs).buf = s.buf := rfl
@[simp] theorem outBytes_phase (bs : List Byte) (s : State) : (s.outBytes bs).phase = s.phase := rfl
@[simp] theorem outBytes_digest (bs : List Byte) (s : State) : (s.outBytes bs).digest = s.digest := rfl
@[simp] theorem outBytes_transients (bs : List Byte) (s : State) : (s.outBytes bs).transients = s.transients := rfl
@[simp] theorem outBytes_dec (bs : List Byte) (s : State) : (s.outBytes bs).dec = s.dec := rfl
@[simp] theorem outBytes_commandChannel (bs : List Byte) (s : State) : (s.outBytes bs).commandChannel = s.commandChannel := rfl
@[simp] theorem outBytes_responseChannel (bs : List Byte) (s : State) : (s.outBytes bs).responseChannel = s.responseChannel ++ bs := rfl
@[simp] theorem outBytes_hardResetLine (bs : List Byte) (s : State) : (s.outBytes bs).hardResetLine = s.hardResetLine := rfl
@[simp] theorem outBytes_misuseSeen (bs : List Byte) (s : State) : (s.outBytes bs).misuseSeen = s.misuseSeen := rfl
@[simp] theorem outBytes_transformsRun (bs : List Byte) (s : State) : (s.outBytes bs).transformsRun = s.transformsRun := rfl
@[simp] theorem outBytes_freeIndex (bs : List Byte) (s : State) : (s.outBytes bs).freeIndex = s.freeIndex := rfl
@[simp] theorem outBytes_fill (bs : List Byte) (s : State) : (s.outBytes bs).fill = s.fill := rfl
@[simp] theorem outBytes_count (bs : List Byte) (s : State) : (s.outBytes bs).count = s.count := rfl
@[simp] theorem outBytes_pending (bs : List Byte) (s : State) : (s.outBytes bs).pending = s.pending := rfl

/-! `State.respond` -/

@[simp] theorem respond_config (c : Code) (s : State) : (s.respond c).config = s.config := rfl
@[simp] theorem respond_h (c : Code) (s : State) : (s.respond c).h = s.h := rfl
@[simp] theorem respond_countHi (c : Code) (s : State) : (s.respond c).countHi = s.countHi := rfl
@[simp] theorem respond_countLo (c : Code) (s : State) : (s.respond c).countLo = s.countLo := rfl
@[simp] theorem respond_buf (c : Code) (s : State) : (s.respond c).buf = s.buf := rfl
@[simp] theorem respond_phase (c : Code) (s : State) : (s.respond c).phase = s.phase := rfl
@[simp] theorem respond_digest (c : Code) (s : State) : (s.respond c).digest = s.digest := rfl
@[simp] theorem respond_transients (c : Code) (s : State) : (s.respond c).transients = s.transients := rfl
@[simp] theorem respond_dec (c : Code) (s : State) : (s.respond c).dec = s.dec := rfl
@[simp] theorem respond_commandChannel (c : Code) (s : State) : (s.respond c).commandChannel = s.commandChannel := rfl
@[simp] theorem respond_responseChannel (c : Code) (s : State) : (s.respond c).responseChannel = s.responseChannel ++ [statusByte c s.phase] := rfl
@[simp] theorem respond_hardResetLine (c : Code) (s : State) : (s.respond c).hardResetLine = s.hardResetLine := rfl
@[simp] theorem respond_misuseSeen (c : Code) (s : State) : (s.respond c).misuseSeen = (s.misuseSeen || c.isError) := rfl
@[simp] theorem respond_transformsRun (c : Code) (s : State) : (s.respond c).transformsRun = s.transformsRun := rfl
@[simp] theorem respond_freeIndex (c : Code) (s : State) : (s.respond c).freeIndex = s.freeIndex := rfl
@[simp] theorem respond_fill (c : Code) (s : State) : (s.respond c).fill = s.fill := rfl
@[simp] theorem respond_count (c : Code) (s : State) : (s.respond c).count = s.count := rfl
@[simp] theorem respond_pending (c : Code) (s : State) : (s.respond c).pending = s.pending := rfl

/-! `State.raiseMisuse` -/

@[simp] theorem raiseMisuse_config (c : Code) (s : State) : (s.raiseMisuse c).config = s.config := rfl
@[simp] theorem raiseMisuse_h (c : Code) (s : State) : (s.raiseMisuse c).h = s.h := rfl
@[simp] theorem raiseMisuse_countHi (c : Code) (s : State) : (s.raiseMisuse c).countHi = s.countHi := rfl
@[simp] theorem raiseMisuse_countLo (c : Code) (s : State) : (s.raiseMisuse c).countLo = s.countLo := rfl
@[simp] theorem raiseMisuse_buf (c : Code) (s : State) : (s.raiseMisuse c).buf = s.buf := rfl
@[simp] theorem raiseMisuse_phase (c : Code) (s : State) : (s.raiseMisuse c).phase = s.phase := rfl
@[simp] theorem raiseMisuse_digest (c : Code) (s : State) : (s.raiseMisuse c).digest = s.digest := rfl
@[simp] theorem raiseMisuse_transients (c : Code) (s : State) : (s.raiseMisuse c).transients = s.transients := rfl
@[simp] theorem raiseMisuse_dec (c : Code) (s : State) : (s.raiseMisuse c).dec = s.dec := rfl
@[simp] theorem raiseMisuse_commandChannel (c : Code) (s : State) : (s.raiseMisuse c).commandChannel = s.commandChannel := rfl
@[simp] theorem raiseMisuse_responseChannel (c : Code) (s : State) : (s.raiseMisuse c).responseChannel = s.responseChannel ++ [statusByte c s.phase] := rfl
@[simp] theorem raiseMisuse_hardResetLine (c : Code) (s : State) : (s.raiseMisuse c).hardResetLine = s.hardResetLine := rfl
@[simp] theorem raiseMisuse_misuseSeen (c : Code) (s : State) : (s.raiseMisuse c).misuseSeen = (s.misuseSeen || c.isError) := rfl
@[simp] theorem raiseMisuse_transformsRun (c : Code) (s : State) : (s.raiseMisuse c).transformsRun = s.transformsRun := rfl
@[simp] theorem raiseMisuse_freeIndex (c : Code) (s : State) : (s.raiseMisuse c).freeIndex = s.freeIndex := rfl
@[simp] theorem raiseMisuse_fill (c : Code) (s : State) : (s.raiseMisuse c).fill = s.fill := rfl
@[simp] theorem raiseMisuse_count (c : Code) (s : State) : (s.raiseMisuse c).count = s.count := rfl
@[simp] theorem raiseMisuse_pending (c : Code) (s : State) : (s.raiseMisuse c).pending = s.pending := rfl

/-! `State.initialise` -/

@[simp] theorem initialise_config (s : State) : s.initialise.config = s.config := rfl
@[simp] theorem initialise_h (s : State) : s.initialise.h = initialChain := rfl
@[simp] theorem initialise_countHi (s : State) : s.initialise.countHi = 0#32 := rfl
@[simp] theorem initialise_countLo (s : State) : s.initialise.countLo = 0#32 := rfl
@[simp] theorem initialise_buf (s : State) : s.initialise.buf = Vector.replicate 64 0#8 := rfl
@[simp] theorem initialise_phase (s : State) : s.initialise.phase = .idle := rfl
@[simp] theorem initialise_digest (s : State) : s.initialise.digest = Vector.replicate 20 0#8 := rfl
@[simp] theorem initialise_transients (s : State) : s.initialise.transients = s.transients := rfl
@[simp] theorem initialise_dec (s : State) : s.initialise.dec = s.dec := rfl
@[simp] theorem initialise_commandChannel (s : State) : s.initialise.commandChannel = s.commandChannel := rfl
@[simp] theorem initialise_responseChannel (s : State) : s.initialise.responseChannel = s.responseChannel := rfl
@[simp] theorem initialise_hardResetLine (s : State) : s.initialise.hardResetLine = s.hardResetLine := rfl
@[simp] theorem initialise_misuseSeen (s : State) : s.initialise.misuseSeen = s.misuseSeen := rfl
@[simp] theorem initialise_transformsRun (s : State) : s.initialise.transformsRun = s.transformsRun := rfl
@[simp] theorem initialise_freeIndex (s : State) : s.initialise.freeIndex = s.freeIndex := rfl

/-! `State.hardReset` -/

@[simp] theorem hardReset_config (s : State) : s.hardReset.config = s.config := rfl
@[simp] theorem hardReset_h (s : State) : s.hardReset.h = initialChain := rfl
@[simp] theorem hardReset_countHi (s : State) : s.hardReset.countHi = 0#32 := rfl
@[simp] theorem hardReset_countLo (s : State) : s.hardReset.countLo = 0#32 := rfl
@[simp] theorem hardReset_buf (s : State) : s.hardReset.buf = Vector.replicate 64 0#8 := rfl
@[simp] theorem hardReset_phase (s : State) : s.hardReset.phase = .idle := rfl
@[simp] theorem hardReset_digest (s : State) : s.hardReset.digest = Vector.replicate 20 0#8 := rfl
@[simp] theorem hardReset_transients (s : State) : s.hardReset.transients = .zero := rfl
@[simp] theorem hardReset_dec (s : State) : s.hardReset.dec = .waitOp := rfl
@[simp] theorem hardReset_commandChannel (s : State) : s.hardReset.commandChannel = [] := rfl
@[simp] theorem hardReset_responseChannel (s : State) : s.hardReset.responseChannel = [] := rfl
@[simp] theorem hardReset_hardResetLine (s : State) : s.hardReset.hardResetLine = false := rfl
@[simp] theorem hardReset_misuseSeen (s : State) : s.hardReset.misuseSeen = s.misuseSeen := rfl
@[simp] theorem hardReset_transformsRun (s : State) : s.hardReset.transformsRun = s.transformsRun := rfl
@[simp] theorem hardReset_freeIndex (s : State) : s.hardReset.freeIndex = s.freeIndex := rfl

/-! `State.leaveUnspecified` -/

@[simp] theorem leaveUnspecified_config (r : Nat) (s : State) : (s.leaveUnspecified r).config = s.config := by rw [State.leaveUnspecified]
@[simp] theorem leaveUnspecified_h (r : Nat) (s : State) : (s.leaveUnspecified r).h = s.h := by rw [State.leaveUnspecified]
@[simp] theorem leaveUnspecified_countHi (r : Nat) (s : State) : (s.leaveUnspecified r).countHi = s.countHi := by rw [State.leaveUnspecified]
@[simp] theorem leaveUnspecified_countLo (r : Nat) (s : State) : (s.leaveUnspecified r).countLo = s.countLo := by rw [State.leaveUnspecified]
@[simp] theorem leaveUnspecified_buf (r : Nat) (s : State) : (s.leaveUnspecified r).buf = unspecifiedTail s.freeIndex s.fill.toNat s.buf := by rw [State.leaveUnspecified]
@[simp] theorem leaveUnspecified_phase (r : Nat) (s : State) : (s.leaveUnspecified r).phase = s.phase := by rw [State.leaveUnspecified]
@[simp] theorem leaveUnspecified_digest (r : Nat) (s : State) : (s.leaveUnspecified r).digest = s.digest := by rw [State.leaveUnspecified]
@[simp] theorem leaveUnspecified_transients (r : Nat) (s : State) : (s.leaveUnspecified r).transients = (if r < s.transformsRun then transientsAfter s.config s.freeIndex else s.transients) := by rw [State.leaveUnspecified]
@[simp] theorem leaveUnspecified_dec (r : Nat) (s : State) : (s.leaveUnspecified r).dec = s.dec := by rw [State.leaveUnspecified]
@[simp] theorem leaveUnspecified_commandChannel (r : Nat) (s : State) : (s.leaveUnspecified r).commandChannel = s.commandChannel := by rw [State.leaveUnspecified]
@[simp] theorem leaveUnspecified_responseChannel (r : Nat) (s : State) : (s.leaveUnspecified r).responseChannel = s.responseChannel := by rw [State.leaveUnspecified]
@[simp] theorem leaveUnspecified_hardResetLine (r : Nat) (s : State) : (s.leaveUnspecified r).hardResetLine = s.hardResetLine := by rw [State.leaveUnspecified]
@[simp] theorem leaveUnspecified_misuseSeen (r : Nat) (s : State) : (s.leaveUnspecified r).misuseSeen = s.misuseSeen := by rw [State.leaveUnspecified]
@[simp] theorem leaveUnspecified_transformsRun (r : Nat) (s : State) : (s.leaveUnspecified r).transformsRun = s.transformsRun := by rw [State.leaveUnspecified]
@[simp] theorem leaveUnspecified_freeIndex (r : Nat) (s : State) : (s.leaveUnspecified r).freeIndex = s.freeIndex + 1 := by rw [State.leaveUnspecified]
@[simp] theorem leaveUnspecified_fill (r : Nat) (s : State) : (s.leaveUnspecified r).fill = s.fill := by simp [State.fill]
@[simp] theorem leaveUnspecified_count (r : Nat) (s : State) : (s.leaveUnspecified r).count = s.count := by simp [State.count]

/-! `State.consumed` -/

@[simp] theorem consumed_config (rest : List Byte) (s : State) : (s.consumed rest).config = s.config := rfl
@[simp] theorem consumed_h (rest : List Byte) (s : State) : (s.consumed rest).h = s.h := rfl
@[simp] theorem consumed_countHi (rest : List Byte) (s : State) : (s.consumed rest).countHi = s.countHi := rfl
@[simp] theorem consumed_countLo (rest : List Byte) (s : State) : (s.consumed rest).countLo = s.countLo := rfl
@[simp] theorem consumed_buf (rest : List Byte) (s : State) : (s.consumed rest).buf = s.buf := rfl
@[simp] theorem consumed_phase (rest : List Byte) (s : State) : (s.consumed rest).phase = s.phase := rfl
@[simp] theorem consumed_digest (rest : List Byte) (s : State) : (s.consumed rest).digest = s.digest := rfl
@[simp] theorem consumed_transients (rest : List Byte) (s : State) : (s.consumed rest).transients = s.transients := rfl
@[simp] theorem consumed_dec (rest : List Byte) (s : State) : (s.consumed rest).dec = .waitOp := rfl
@[simp] theorem consumed_commandChannel (rest : List Byte) (s : State) : (s.consumed rest).commandChannel = rest := rfl
@[simp] theorem consumed_responseChannel (rest : List Byte) (s : State) : (s.consumed rest).responseChannel = s.responseChannel := rfl
@[simp] theorem consumed_hardResetLine (rest : List Byte) (s : State) : (s.consumed rest).hardResetLine = s.hardResetLine := rfl
@[simp] theorem consumed_misuseSeen (rest : List Byte) (s : State) : (s.consumed rest).misuseSeen = s.misuseSeen := rfl
@[simp] theorem consumed_transformsRun (rest : List Byte) (s : State) : (s.consumed rest).transformsRun = s.transformsRun := rfl
@[simp] theorem consumed_freeIndex (rest : List Byte) (s : State) : (s.consumed rest).freeIndex = s.freeIndex := rfl
@[simp] theorem consumed_fill (rest : List Byte) (s : State) : (s.consumed rest).fill = s.fill := rfl
@[simp] theorem consumed_count (rest : List Byte) (s : State) : (s.consumed rest).count = s.count := rfl
@[simp] theorem consumed_pending (rest : List Byte) (s : State) : (s.consumed rest).pending = s.pending := rfl

/-! `State.waiting` -/

@[simp] theorem waiting_config (d : Dec) (s : State) : (s.waiting d).config = s.config := rfl
@[simp] theorem waiting_h (d : Dec) (s : State) : (s.waiting d).h = s.h := rfl
@[simp] theorem waiting_countHi (d : Dec) (s : State) : (s.waiting d).countHi = s.countHi := rfl
@[simp] theorem waiting_countLo (d : Dec) (s : State) : (s.waiting d).countLo = s.countLo := rfl
@[simp] theorem waiting_buf (d : Dec) (s : State) : (s.waiting d).buf = s.buf := rfl
@[simp] theorem waiting_phase (d : Dec) (s : State) : (s.waiting d).phase = s.phase := rfl
@[simp] theorem waiting_digest (d : Dec) (s : State) : (s.waiting d).digest = s.digest := rfl
@[simp] theorem waiting_transients (d : Dec) (s : State) : (s.waiting d).transients = s.transients := rfl
@[simp] theorem waiting_dec (d : Dec) (s : State) : (s.waiting d).dec = d := rfl
@[simp] theorem waiting_commandChannel (d : Dec) (s : State) : (s.waiting d).commandChannel = [] := rfl
@[simp] theorem waiting_responseChannel (d : Dec) (s : State) : (s.waiting d).responseChannel = s.responseChannel := rfl
@[simp] theorem waiting_hardResetLine (d : Dec) (s : State) : (s.waiting d).hardResetLine = s.hardResetLine := rfl
@[simp] theorem waiting_misuseSeen (d : Dec) (s : State) : (s.waiting d).misuseSeen = s.misuseSeen := rfl
@[simp] theorem waiting_transformsRun (d : Dec) (s : State) : (s.waiting d).transformsRun = s.transformsRun := rfl
@[simp] theorem waiting_freeIndex (d : Dec) (s : State) : (s.waiting d).freeIndex = s.freeIndex := rfl
@[simp] theorem waiting_fill (d : Dec) (s : State) : (s.waiting d).fill = s.fill := rfl
@[simp] theorem waiting_count (d : Dec) (s : State) : (s.waiting d).count = s.count := rfl
@[simp] theorem waiting_pending (d : Dec) (s : State) : (s.waiting d).pending = s.pending := rfl

/-! `State.send` -/

@[simp] theorem send_config (bs : List Byte) (s : State) : (s.send bs).config = s.config := rfl
@[simp] theorem send_h (bs : List Byte) (s : State) : (s.send bs).h = s.h := rfl
@[simp] theorem send_countHi (bs : List Byte) (s : State) : (s.send bs).countHi = s.countHi := rfl
@[simp] theorem send_countLo (bs : List Byte) (s : State) : (s.send bs).countLo = s.countLo := rfl
@[simp] theorem send_buf (bs : List Byte) (s : State) : (s.send bs).buf = s.buf := rfl
@[simp] theorem send_phase (bs : List Byte) (s : State) : (s.send bs).phase = s.phase := rfl
@[simp] theorem send_digest (bs : List Byte) (s : State) : (s.send bs).digest = s.digest := rfl
@[simp] theorem send_transients (bs : List Byte) (s : State) : (s.send bs).transients = s.transients := rfl
@[simp] theorem send_dec (bs : List Byte) (s : State) : (s.send bs).dec = s.dec := rfl
@[simp] theorem send_commandChannel (bs : List Byte) (s : State) : (s.send bs).commandChannel = s.commandChannel ++ bs := rfl
@[simp] theorem send_responseChannel (bs : List Byte) (s : State) : (s.send bs).responseChannel = s.responseChannel := rfl
@[simp] theorem send_hardResetLine (bs : List Byte) (s : State) : (s.send bs).hardResetLine = s.hardResetLine := rfl
@[simp] theorem send_misuseSeen (bs : List Byte) (s : State) : (s.send bs).misuseSeen = s.misuseSeen := rfl
@[simp] theorem send_transformsRun (bs : List Byte) (s : State) : (s.send bs).transformsRun = s.transformsRun := rfl
@[simp] theorem send_freeIndex (bs : List Byte) (s : State) : (s.send bs).freeIndex = s.freeIndex := rfl
@[simp] theorem send_fill (bs : List Byte) (s : State) : (s.send bs).fill = s.fill := rfl
@[simp] theorem send_count (bs : List Byte) (s : State) : (s.send bs).count = s.count := rfl
@[simp] theorem send_pending (bs : List Byte) (s : State) : (s.send bs).pending = s.pending := rfl

/-! `State.assertHardReset` -/

@[simp] theorem assertHardReset_config (s : State) : s.assertHardReset.config = s.config := rfl
@[simp] theorem assertHardReset_h (s : State) : s.assertHardReset.h = s.h := rfl
@[simp] theorem assertHardReset_countHi (s : State) : s.assertHardReset.countHi = s.countHi := rfl
@[simp] theorem assertHardReset_countLo (s : State) : s.assertHardReset.countLo = s.countLo := rfl
@[simp] theorem assertHardReset_buf (s : State) : s.assertHardReset.buf = s.buf := rfl
@[simp] theorem assertHardReset_phase (s : State) : s.assertHardReset.phase = s.phase := rfl
@[simp] theorem assertHardReset_digest (s : State) : s.assertHardReset.digest = s.digest := rfl
@[simp] theorem assertHardReset_transients (s : State) : s.assertHardReset.transients = s.transients := rfl
@[simp] theorem assertHardReset_dec (s : State) : s.assertHardReset.dec = s.dec := rfl
@[simp] theorem assertHardReset_commandChannel (s : State) : s.assertHardReset.commandChannel = s.commandChannel := rfl
@[simp] theorem assertHardReset_responseChannel (s : State) : s.assertHardReset.responseChannel = s.responseChannel := rfl
@[simp] theorem assertHardReset_hardResetLine (s : State) : s.assertHardReset.hardResetLine = true := rfl
@[simp] theorem assertHardReset_misuseSeen (s : State) : s.assertHardReset.misuseSeen = s.misuseSeen := rfl
@[simp] theorem assertHardReset_transformsRun (s : State) : s.assertHardReset.transformsRun = s.transformsRun := rfl
@[simp] theorem assertHardReset_freeIndex (s : State) : s.assertHardReset.freeIndex = s.freeIndex := rfl
@[simp] theorem assertHardReset_fill (s : State) : s.assertHardReset.fill = s.fill := rfl
@[simp] theorem assertHardReset_count (s : State) : s.assertHardReset.count = s.count := rfl
@[simp] theorem assertHardReset_pending (s : State) : s.assertHardReset.pending = s.pending := rfl

/-! `State.absorbBytes` -/

@[simp] theorem absorbBytes_config (data : List Byte) (s : State) : (s.absorbBytes data).config = s.config := rfl
@[simp] theorem absorbBytes_h (data : List Byte) (s : State) : (s.absorbBytes data).h = (absorbLoop s.filling data).h := rfl
@[simp] theorem absorbBytes_countHi (data : List Byte) (s : State) : (s.absorbBytes data).countHi = (counterAdd s.countHi s.countLo (byteCount data)).1 := rfl
@[simp] theorem absorbBytes_countLo (data : List Byte) (s : State) : (s.absorbBytes data).countLo = (counterAdd s.countHi s.countLo (byteCount data)).2 := rfl
@[simp] theorem absorbBytes_buf (data : List Byte) (s : State) : (s.absorbBytes data).buf = (absorbLoop s.filling data).buf := rfl
@[simp] theorem absorbBytes_phase (data : List Byte) (s : State) : (s.absorbBytes data).phase = s.phase := rfl
@[simp] theorem absorbBytes_digest (data : List Byte) (s : State) : (s.absorbBytes data).digest = s.digest := rfl
@[simp] theorem absorbBytes_transients (data : List Byte) (s : State) : (s.absorbBytes data).transients = s.transients := rfl
@[simp] theorem absorbBytes_dec (data : List Byte) (s : State) : (s.absorbBytes data).dec = s.dec := rfl
@[simp] theorem absorbBytes_commandChannel (data : List Byte) (s : State) : (s.absorbBytes data).commandChannel = s.commandChannel := rfl
@[simp] theorem absorbBytes_responseChannel (data : List Byte) (s : State) : (s.absorbBytes data).responseChannel = s.responseChannel := rfl
@[simp] theorem absorbBytes_hardResetLine (data : List Byte) (s : State) : (s.absorbBytes data).hardResetLine = s.hardResetLine := rfl
@[simp] theorem absorbBytes_misuseSeen (data : List Byte) (s : State) : (s.absorbBytes data).misuseSeen = s.misuseSeen := rfl
@[simp] theorem absorbBytes_transformsRun (data : List Byte) (s : State) : (s.absorbBytes data).transformsRun = s.transformsRun + (absorbLoop s.filling data).runs := rfl
@[simp] theorem absorbBytes_freeIndex (data : List Byte) (s : State) : (s.absorbBytes data).freeIndex = s.freeIndex := rfl

/-! `State.produceDigest` -/

@[simp] theorem produceDigest_config (s : State) : s.produceDigest.config = s.config := rfl
@[simp] theorem produceDigest_h (s : State) : s.produceDigest.h = s.h := rfl
@[simp] theorem produceDigest_countHi (s : State) : s.produceDigest.countHi = s.countHi := rfl
@[simp] theorem produceDigest_countLo (s : State) : s.produceDigest.countLo = s.countLo := rfl
@[simp] theorem produceDigest_buf (s : State) : s.produceDigest.buf = s.buf := rfl
@[simp] theorem produceDigest_phase (s : State) : s.produceDigest.phase = .finalized := rfl
@[simp] theorem produceDigest_digest (s : State) : s.produceDigest.digest = digestBytes s.h := rfl
@[simp] theorem produceDigest_transients (s : State) : s.produceDigest.transients = s.transients := rfl
@[simp] theorem produceDigest_dec (s : State) : s.produceDigest.dec = s.dec := rfl
@[simp] theorem produceDigest_commandChannel (s : State) : s.produceDigest.commandChannel = s.commandChannel := rfl
@[simp] theorem produceDigest_responseChannel (s : State) : s.produceDigest.responseChannel = s.responseChannel := rfl
@[simp] theorem produceDigest_hardResetLine (s : State) : s.produceDigest.hardResetLine = s.hardResetLine := rfl
@[simp] theorem produceDigest_misuseSeen (s : State) : s.produceDigest.misuseSeen = s.misuseSeen := rfl
@[simp] theorem produceDigest_transformsRun (s : State) : s.produceDigest.transformsRun = s.transformsRun := rfl
@[simp] theorem produceDigest_freeIndex (s : State) : s.produceDigest.freeIndex = s.freeIndex := rfl
@[simp] theorem produceDigest_fill (s : State) : s.produceDigest.fill = s.fill := rfl
@[simp] theorem produceDigest_count (s : State) : s.produceDigest.count = s.count := rfl
@[simp] theorem produceDigest_pending (s : State) : s.produceDigest.pending = s.pending := rfl

end Sys2Proof.Machine
end

