-- ==== Sys2Proof/Laws/Finalize.lean ====
section
/-! SUPPORT. What the padding and FINALIZE's effect leave alone, one lemma per field. -/

namespace Sys2Proof.Machine

theorem padZeros_zero (s : State) : State.padZeros 0 s = s := rfl

theorem padZeros_succ (k : Nat) (s : State) :
    State.padZeros (k + 1) s = if s.fill = 56#6 then s else State.padZeros k (s.absorbBytes [0#8]) := rfl

@[simp] theorem padZeros_config (k : Nat) : ∀ s : State, (State.padZeros k s).config = s.config := by
  induction k with
  | zero => intro s; rfl
  | succ k ih => intro s; rw [padZeros_succ]; split <;> simp [ih]

@[simp] theorem pad_config (lf : List Byte) (s : State) : (s.pad lf).config = s.config := by
  simp [State.pad]

@[simp] theorem padZeros_phase (k : Nat) : ∀ s : State, (State.padZeros k s).phase = s.phase := by
  induction k with
  | zero => intro s; rfl
  | succ k ih => intro s; rw [padZeros_succ]; split <;> simp [ih]

@[simp] theorem pad_phase (lf : List Byte) (s : State) : (s.pad lf).phase = s.phase := by
  simp [State.pad]

@[simp] theorem padZeros_digest (k : Nat) : ∀ s : State, (State.padZeros k s).digest = s.digest := by
  induction k with
  | zero => intro s; rfl
  | succ k ih => intro s; rw [padZeros_succ]; split <;> simp [ih]

@[simp] theorem pad_digest (lf : List Byte) (s : State) : (s.pad lf).digest = s.digest := by
  simp [State.pad]

@[simp] theorem padZeros_transients (k : Nat) : ∀ s : State, (State.padZeros k s).transients = s.transients := by
  induction k with
  | zero => intro s; rfl
  | succ k ih => intro s; rw [padZeros_succ]; split <;> simp [ih]

@[simp] theorem pad_transients (lf : List Byte) (s : State) : (s.pad lf).transients = s.transients := by
  simp [State.pad]

@[simp] theorem padZeros_dec (k : Nat) : ∀ s : State, (State.padZeros k s).dec = s.dec := by
  induction k with
  | zero => intro s; rfl
  | succ k ih => intro s; rw [padZeros_succ]; split <;> simp [ih]

@[simp] theorem pad_dec (lf : List Byte) (s : State) : (s.pad lf).dec = s.dec := by
  simp [State.pad]

@[simp] theorem padZeros_commandChannel (k : Nat) : ∀ s : State, (State.padZeros k s).commandChannel = s.commandChannel := by
  induction k with
  | zero => intro s; rfl
  | succ k ih => intro s; rw [padZeros_succ]; split <;> simp [ih]

@[simp] theorem pad_commandChannel (lf : List Byte) (s : State) : (s.pad lf).commandChannel = s.commandChannel := by
  simp [State.pad]

@[simp] theorem padZeros_responseChannel (k : Nat) : ∀ s : State, (State.padZeros k s).responseChannel = s.responseChannel := by
  induction k with
  | zero => intro s; rfl
  | succ k ih => intro s; rw [padZeros_succ]; split <;> simp [ih]

@[simp] theorem pad_responseChannel (lf : List Byte) (s : State) : (s.pad lf).responseChannel = s.responseChannel := by
  simp [State.pad]

@[simp] theorem padZeros_hardResetLine (k : Nat) : ∀ s : State, (State.padZeros k s).hardResetLine = s.hardResetLine := by
  induction k with
  | zero => intro s; rfl
  | succ k ih => intro s; rw [padZeros_succ]; split <;> simp [ih]

@[simp] theorem pad_hardResetLine (lf : List Byte) (s : State) : (s.pad lf).hardResetLine = s.hardResetLine := by
  simp [State.pad]

@[simp] theorem padZeros_misuseSeen (k : Nat) : ∀ s : State, (State.padZeros k s).misuseSeen = s.misuseSeen := by
  induction k with
  | zero => intro s; rfl
  | succ k ih => intro s; rw [padZeros_succ]; split <;> simp [ih]

@[simp] theorem pad_misuseSeen (lf : List Byte) (s : State) : (s.pad lf).misuseSeen = s.misuseSeen := by
  simp [State.pad]

@[simp] theorem padZeros_freeIndex (k : Nat) : ∀ s : State, (State.padZeros k s).freeIndex = s.freeIndex := by
  induction k with
  | zero => intro s; rfl
  | succ k ih => intro s; rw [padZeros_succ]; split <;> simp [ih]

@[simp] theorem pad_freeIndex (lf : List Byte) (s : State) : (s.pad lf).freeIndex = s.freeIndex := by
  simp [State.pad]

@[simp] theorem finalizeFrame_config (s : State) : s.finalizeFrame.config = s.config := by
  simp [State.finalizeFrame]

@[simp] theorem finalizeFrame_dec (s : State) : s.finalizeFrame.dec = s.dec := by
  simp [State.finalizeFrame]

@[simp] theorem finalizeFrame_commandChannel (s : State) : s.finalizeFrame.commandChannel = s.commandChannel := by
  simp [State.finalizeFrame]

@[simp] theorem finalizeFrame_responseChannel (s : State) : s.finalizeFrame.responseChannel = s.responseChannel := by
  simp [State.finalizeFrame]

@[simp] theorem finalizeFrame_hardResetLine (s : State) : s.finalizeFrame.hardResetLine = s.hardResetLine := by
  simp [State.finalizeFrame]

@[simp] theorem finalizeFrame_misuseSeen (s : State) : s.finalizeFrame.misuseSeen = s.misuseSeen := by
  simp [State.finalizeFrame]

@[simp] theorem finalizeFrame_phase (s : State) : s.finalizeFrame.phase = .finalized := by
  simp [State.finalizeFrame]

@[simp] theorem finalizeFrame_h (s : State) : s.finalizeFrame.h = (s.pad s.lengthField).h := by
  simp [State.finalizeFrame]

@[simp] theorem finalizeFrame_digest (s : State) : s.finalizeFrame.digest = digestBytes (s.pad s.lengthField).h := by
  simp [State.finalizeFrame]

@[simp] theorem finalizeFrame_countHi (s : State) : s.finalizeFrame.countHi = (s.pad s.lengthField).countHi := by
  simp [State.finalizeFrame]

@[simp] theorem finalizeFrame_countLo (s : State) : s.finalizeFrame.countLo = (s.pad s.lengthField).countLo := by
  simp [State.finalizeFrame]

@[simp] theorem finalizeFrame_transformsRun (s : State) :
    s.finalizeFrame.transformsRun = (s.pad s.lengthField).transformsRun := by
  simp [State.finalizeFrame]

end Sys2Proof.Machine
end

