-- ==== Sys2Proof/Laws/Step.lean ====
section
/-! SUPPORT. One spec lemma per command and per shared operation of the step: everything it can answer. -/

namespace Sys2Proof.Machine

/-- Everything RESET can do (43_streaming_buffer.md R107). -/
theorem execReset_eq (s : State) : execReset s = .next (s.initialise.respond .ok) := rfl

/-- Everything ABSORB can do (R109). -/
theorem execAbsorb_cases (len : Word) (data : List Byte) (s : State) :
    (s.phase = .finalized ∧ execAbsorb len data s = .next (s.raiseMisuse .absorbAfterFinal))
    ∨ (s.phase ≠ .finalized ∧ execAbsorb len data s = .next ((s.absorbFrame len data).respond .ok)) := by
  by_cases h : s.phase = .finalized <;> simp [execAbsorb, h]

/-- Everything FINALIZE can do (44_finalizer.md R118). -/
theorem execFinalize_cases (s : State) :
    (s.phase = .finalized ∧ execFinalize s = .next (s.raiseMisuse .finalTwice))
    ∨ (s.phase ≠ .finalized ∧ execFinalize s = .next (s.finalizeFrame.respond .ok)) := by
  by_cases h : s.phase = .finalized <;> simp [execFinalize, h]

/-- Everything GET_DIGEST can do (R120). -/
theorem execGetDigest_cases (s : State) :
    (s.phase = .finalized ∧ execGetDigest s = .next ((s.respond .ok).outBytes s.digest.toList))
    ∨ (s.phase ≠ .finalized ∧ execGetDigest s = .next (s.raiseMisuse .digestEarly)) := by
  by_cases h : s.phase = .finalized <;> simp [execGetDigest, h]

/-- Everything an illegal byte can do (60_exceptions.md R129). -/
theorem execIllegal_eq (op : Byte) (s : State) : execIllegal op s = .next (s.raiseMisuse .illegalOpcode) := rfl

/-- Waiting for bytes answers a next state only if there were bytes to consume. -/
theorem awaitBytes_next {d : Dec} {s t : State} (h : s.awaitBytes d = .next t) :
    s.commandChannel ≠ [] ∧ t = s.waiting d := by
  unfold State.awaitBytes at h
  split at h
  · cases h
  · next heq => exact ⟨by simp [heq], by simpa using h.symm⟩

/-- With no byte there is no step. -/
theorem awaitBytes_of_nil {d : Dec} {s : State} (h : s.commandChannel = []) : s.awaitBytes d = .fault (noByte d) := by
  simp [State.awaitBytes, h]

/-- With bytes, waiting consumes them. -/
theorem awaitBytes_of_ne_nil {d : Dec} {s : State} (h : s.commandChannel ≠ []) : s.awaitBytes d = .next (s.waiting d) := by
  unfold State.awaitBytes
  split
  · exact absurd ‹_› h
  · rfl

/-- Everything a step that answers a next state has done. -/
theorem step_cases {s t : State} (h : step s = .next t) :
    (s.hardResetLine = true ∧ t = s.hardReset)
    ∨ (s.hardResetLine = false ∧ ∃ i rest, s.fetch = .complete i rest ∧ exec i (s.consumed rest) = .next t)
    ∨ (s.hardResetLine = false ∧ ∃ d, s.fetch = .incomplete d ∧ s.commandChannel ≠ [] ∧ t = s.waiting d) := by
  unfold step at h
  split at h
  · next hl => exact .inl ⟨hl, by simpa using h.symm⟩
  · next hl =>
    have hl : s.hardResetLine = false := by simpa using hl
    cases hf : s.fetch with
    | complete i rest => exact .inr (.inl ⟨hl, i, rest, rfl, by simpa [hf] using h⟩)
    | incomplete d =>
      rw [hf] at h
      exact .inr (.inr ⟨hl, d, rfl, awaitBytes_next h⟩)

/-! Which fields the two absorbing frames leave alone. -/

@[simp] theorem absorbFrame_config (len : Word) (data : List Byte) (s : State) : (s.absorbFrame len data).config = s.config := by
  unfold State.absorbFrame; split <;> simp
@[simp] theorem absorbFrame_digest (len : Word) (data : List Byte) (s : State) : (s.absorbFrame len data).digest = s.digest := by
  unfold State.absorbFrame; split <;> simp
@[simp] theorem absorbFrame_dec (len : Word) (data : List Byte) (s : State) : (s.absorbFrame len data).dec = s.dec := by
  unfold State.absorbFrame; split <;> simp
@[simp] theorem absorbFrame_commandChannel (len : Word) (data : List Byte) (s : State) :
    (s.absorbFrame len data).commandChannel = s.commandChannel := by
  unfold State.absorbFrame; split <;> simp
@[simp] theorem absorbFrame_responseChannel (len : Word) (data : List Byte) (s : State) :
    (s.absorbFrame len data).responseChannel = s.responseChannel := by
  unfold State.absorbFrame; split <;> simp
@[simp] theorem absorbFrame_hardResetLine (len : Word) (data : List Byte) (s : State) :
    (s.absorbFrame len data).hardResetLine = s.hardResetLine := by
  unfold State.absorbFrame; split <;> simp
@[simp] theorem absorbFrame_misuseSeen (len : Word) (data : List Byte) (s : State) :
    (s.absorbFrame len data).misuseSeen = s.misuseSeen := by
  unfold State.absorbFrame; split <;> simp
@[simp] theorem absorbFrame_h (len : Word) (data : List Byte) (s : State) :
    (s.absorbFrame len data).h = (s.absorbBytes data).h := by
  unfold State.absorbFrame; split <;> simp
@[simp] theorem absorbFrame_countHi (len : Word) (data : List Byte) (s : State) :
    (s.absorbFrame len data).countHi = (s.absorbBytes data).countHi := by
  unfold State.absorbFrame; split <;> simp
@[simp] theorem absorbFrame_countLo (len : Word) (data : List Byte) (s : State) :
    (s.absorbFrame len data).countLo = (s.absorbBytes data).countLo := by
  unfold State.absorbFrame; split <;> simp
@[simp] theorem absorbFrame_transformsRun (len : Word) (data : List Byte) (s : State) :
    (s.absorbFrame len data).transformsRun = (s.absorbBytes data).transformsRun := by
  unfold State.absorbFrame; split <;> simp
@[simp] theorem absorbFrame_phase (len : Word) (data : List Byte) (s : State) :
    (s.absorbFrame len data).phase = if len = 0#32 then s.phase else .absorbing := by
  unfold State.absorbFrame; split <;> simp

/-- What all commands have in common: they leave DEC, the command channel and the reset line alone, and lengthen the response
channel (R42, R55). -/
theorem exec_channels {i : Instr} {s t : State} (h : exec i s = .next t) :
    t.dec = s.dec ∧ t.commandChannel = s.commandChannel ∧ t.hardResetLine = s.hardResetLine
    ∧ s.responseChannel.length < t.responseChannel.length := by
  cases i with
  | reset => cases h; simp
  | absorb len data =>
    rcases execAbsorb_cases len data s with ⟨-, e⟩ | ⟨-, e⟩ <;> cases e.symm.trans h <;> simp
  | finalize => rcases execFinalize_cases s with ⟨-, e⟩ | ⟨-, e⟩ <;> cases e.symm.trans h <;> simp
  | getDigest => rcases execGetDigest_cases s with ⟨-, e⟩ | ⟨-, e⟩ <;> cases e.symm.trans h <;> simp
  | illegal op => cases h; simp

/-- What a step that is no hard reset does to DEC and the channels: it executes the whole frame in front, or only moves DEC. -/
theorem step_channels {s t : State} (hl : s.hardResetLine = false) (h : step s = .next t) :
    (∃ i rest, s.fetch = .complete i rest ∧ exec i (s.consumed rest) = .next t ∧ t.dec = .waitOp
      ∧ t.commandChannel = rest ∧ t.hardResetLine = false ∧ s.responseChannel.length < t.responseChannel.length)
    ∨ ∃ d, s.fetch = .incomplete d ∧ t = s.waiting d := by
  rcases step_cases h with ⟨h, -⟩ | ⟨-, i, rest, hf, he⟩ | ⟨-, d, hf, -, e⟩
  · simp [hl] at h
  · obtain ⟨hd, hc, hr, hlt⟩ := exec_channels he
    exact .inl ⟨i, rest, hf, he, hd, hc, hr.trans hl, hlt⟩
  · exact .inr ⟨d, hf, e⟩

end Sys2Proof.Machine
end

