-- ==== Sys2Proof/Laws/Execution.lean ====
section
/-! SUPPORT. Small lemmas of the runs of Machine/Execution.lean: when the block is enabled, and what each action changes. -/

namespace Sys2Proof.Machine

/-- The block can take a step exactly when a hard reset is asserted or there is a byte to read. -/
theorem enabled_iff (s : State) : Enabled s ↔ s.hardResetLine = true ∨ s.commandChannel ≠ [] := by
  have exec_next : ∀ (i : Instr) (u : State), ∃ t, exec i u = .next t := fun i u => by
    cases i <;> simp only [exec, execReset, execAbsorb, execFinalize, execGetDigest, execIllegal] <;>
      first | exact ⟨_, rfl⟩ | (split <;> exact ⟨_, rfl⟩)
  constructor
  · rintro ⟨t, h⟩
    rcases step_cases h with ⟨hl, -⟩ | ⟨-, i, rest, hf, -⟩ | ⟨-, d, -, hc, -⟩
    · exact .inl hl
    · exact .inr fun hc => by rw [State.fetch, hc] at hf; cases hf
    · exact .inr hc
  · intro h
    unfold Enabled step
    split
    · exact ⟨_, rfl⟩
    · next hl =>
      cases hf : s.fetch with
      | complete i rest => exact exec_next i _
      | incomplete d => exact ⟨_, awaitBytes_of_ne_nil (h.resolve_left (by simpa using hl))⟩

/-- An action other than a step of the block, and other than asserting the hard reset, leaves DEC and the reset line alone and
the bytes of the command channel in front. -/
theorem perform_keeps {a : RunAction} {s t : State} (ha : a ≠ .block) (h : a.perform s = .next t) :
    (∃ bs, t.commandChannel = s.commandChannel ++ bs) ∧ t.dec = s.dec
    ∧ (a ≠ .assertHardReset → t.hardResetLine = s.hardResetLine) := by
  cases a <;> simp only [RunAction.perform, Host.Outcome.next.injEq] at h
  · exact absurd rfl ha
  all_goals subst h
  · exact ⟨⟨_, rfl⟩, rfl, fun _ => rfl⟩
  · exact ⟨⟨[], by simp [State.takeResponse]⟩, rfl, fun _ => rfl⟩
  · exact ⟨⟨[], by simp [State.assertHardReset]⟩, rfl, fun h => absurd rfl h⟩
  · exact ⟨⟨[], by simp⟩, rfl, fun _ => rfl⟩

/-- A step of the block is counted, anything else is not. -/
theorem blockSteps_succ (act : Nat → RunAction) {n m : Nat} (h : n ≤ m) :
    blockSteps act n (m + 1) = blockSteps act n m + if act m = .block then 1 else 0 := by
  unfold blockSteps
  rw [show m + 1 - n = (m - n) + 1 by omega, List.range_succ, List.filter_append, List.length_append]
  simp only [List.filter_cons, List.filter_nil, show n + (m - n) = m by omega, decide_eq_true_eq]
  split <;> simp

@[simp] theorem blockSteps_self (act : Nat → RunAction) (n : Nat) : blockSteps act n n = 0 := by
  simp [blockSteps]

@[simp] theorem play_nil (r : RunLog) : RunLog.play [] r = some r := rfl

/-- One action of a run that happened, and the run after it. -/
theorem play_cons {a : RunAction} {as : List RunAction} {r r' : RunLog} :
    RunLog.play (a :: as) r = some r' ↔ ∃ t, a.perform r.state = .next t ∧ RunLog.play as (r.record a t) = some r' := by
  simp only [RunLog.play]
  cases h : a.perform r.state <;> simp

/-- The log's state is the state reached. -/
@[simp] theorem record_state (a : RunAction) (t : State) (r : RunLog) : (r.record a t).state = t := by
  cases a <;> simp only [RunLog.record]
  split <;> rfl

end Sys2Proof.Machine
end

