-- ==== Sys2Proof/Laws/Flags.lean ====
section
/-! SUPPORT. The fields of the status byte (30_encoding.md R53). -/

namespace Sys2Proof.Machine

@[simp] theorem statusByte_code (c : Code) (p : Phase) : (statusByte c p).extractLsb' 0 3 = c.bits := by
  cases c <;> cases p <;> decide

@[simp] theorem statusByte_phase (c : Code) (p : Phase) : (statusByte c p).extractLsb' 3 2 = p.bits := by
  cases c <;> cases p <;> decide

@[simp] theorem statusByte_zero (c : Code) (p : Phase) : (statusByte c p).extractLsb' 5 3 = 0#3 := by
  cases c <;> cases p <;> decide

@[simp] theorem isError_iff (c : Code) : c.isError = decide (c ≠ .ok) := by
  cases c <;> decide

end Sys2Proof.Machine
end

