-- ==== Sys2Proof/Laws/PerInstr.lean ====
section
/-! SUPPORT. A statement about every command as syntax, one lemma per constructor: the bytes of its frame (30_encoding.md
R46 to R49). -/

namespace Sys2Proof.Laws.FrameBytes

/-- A well-formed command's frame has the length R49 gives and is the whole of what R49's rule reads from its first bytes. -/
def Statement (i : Instr) : Prop :=
  i.wellFormed = true → (encode i).length = frameLength (encode i)

theorem reset : Statement .reset := by
  intro _; decide

theorem absorb (len : Word) (data : List Byte) : Statement (.absorb len data) := by
  intro h
  have h : data.length = len.toNat := by simpa [Instr.wellFormed] using h
  have hl : frameLength (encode (.absorb len data)) = 5 + (lenField (len.extractLsb' 24 8) (len.extractLsb' 16 8)
      (len.extractLsb' 8 8) (len.extractLsb' 0 8)).toNat := rfl
  rw [hl, lenField_of_bytes, ← h]
  simp [encode]; omega

theorem finalize : Statement .finalize := by
  intro _; decide

theorem getDigest : Statement .getDigest := by
  intro _; decide

theorem illegal (op : Byte) : Statement (.illegal op) := by
  intro h
  have hop : op ≠ 0x02#8 := by
    rintro rfl
    exact absurd h (by decide)
  simp [encode, frameLength, hop]

end Sys2Proof.Laws.FrameBytes
end

