-- ==== Sys2Proof/Laws/Stream.lean ====
section
/-! SUPPORT. The absorb loop as a function of the byte stream: the spec lemma of `absorb_bytes` (43_streaming_buffer.md R98). -/

namespace Sys2Proof.Machine

theorem hashStream_of_short (h : Chain) {stream : List Byte} (hl : stream.length < 64) : hashStream h stream = h := by
  simp [hashStream, Nat.div_eq_of_lt hl, directBlocks]

theorem streamTail_of_short {stream : List Byte} (hl : stream.length < 64) : streamTail stream = stream := by
  simp [streamTail, Nat.div_eq_of_lt hl]

/-- A block at the front of a stream reads only its own 64 bytes. -/
theorem blockOf_append {blk : List Byte} (hl : blk.length = 64) (rest : List Byte) :
    blockOf (blk ++ rest) = blockOf blk := by
  ext i hi
  simp [blockOf, List.getElem?_append_left (show i < blk.length by omega)]

@[simp] theorem blockOf_toList (v : Vector Byte 64) : blockOf v.toList = v := by
  ext i hi
  simp [blockOf]

theorem hashStream_block (h : Chain) {blk : List Byte} (hl : blk.length = 64) (rest : List Byte) :
    hashStream h (blk ++ rest) = hashStream (transform h (blockOf blk)) rest := by
  have hn : (blk ++ rest).length / 64 = rest.length / 64 + 1 := by simp; omega
  rw [hashStream, hn, directBlocks, blockOf_append hl, List.drop_append_of_le_length (by omega), ← hl, List.drop_length]
  simp [hashStream, hl]

theorem streamTail_block {blk : List Byte} (hl : blk.length = 64) (rest : List Byte) :
    streamTail (blk ++ rest) = streamTail rest := by
  have hn : 64 * ((blk ++ rest).length / 64) = blk.length + 64 * (rest.length / 64) := by simp; omega
  rw [streamTail, hn, List.drop_append]
  simp [streamTail]

/-- Everything the absorb loop does: H after the full blocks of BUF[0..j-1] followed by the data, and what is left over in
BUF[0..j'-1]. -/
theorem absorbLoop_stream (data : List Byte) : ∀ {f : Filling}, f.j < 64 →
    (absorbLoop f data).h = hashStream f.h (f.buf.toList.take f.j ++ data)
    ∧ (absorbLoop f data).buf.toList.take (absorbLoop f data).j = streamTail (f.buf.toList.take f.j ++ data) := by
  induction data with
  | nil =>
    intro f hj
    have hl : (f.buf.toList.take f.j ++ []).length < 64 := by simp; omega
    rw [hashStream_of_short _ hl, streamTail_of_short hl]
    simp
  | cons b bs ih =>
    intro f hj
    have hset : (f.buf.setIfInBounds f.j b).toList.take (f.j + 1) = f.buf.toList.take f.j ++ [b] := by
      apply List.ext_getElem
      · simp; omega
      · intro i h1 h2
        simp only [List.length_append, List.length_take, Vector.length_toList, List.length_singleton] at h2
        rw [List.getElem_take, Vector.getElem_toList, Vector.getElem_setIfInBounds, List.getElem_append]
        by_cases hi : f.j = i
        · subst hi; simp
        · simp [hi]; omega
    rw [absorbLoop_cons]
    by_cases h1 : f.j + 1 = 64
    · have hfull : f.buf.toList.take f.j ++ [b] = (f.buf.setIfInBounds f.j b).toList := by
        rw [← hset, h1]; exact List.take_of_length_le (by simp)
      have hsplit : f.buf.toList.take f.j ++ b :: bs = (f.buf.setIfInBounds f.j b).toList ++ bs := by
        rw [← hfull]; simp
      rw [hsplit, hashStream_block _ (by simp), streamTail_block (by simp), blockOf_toList]
      have := ih (f := absorbByte f b) (by simp [absorbByte_of_eq b h1])
      simpa [absorbByte_of_eq b h1] using this
    · have hsplit : f.buf.toList.take f.j ++ b :: bs = (f.buf.setIfInBounds f.j b).toList.take (f.j + 1) ++ bs := by
        rw [hset]; simp
      rw [hsplit]
      have := ih (f := absorbByte f b) (by rw [absorbByte_of_lt b (by omega)]; simp; omega)
      simpa [absorbByte_of_lt b (show f.j + 1 < 64 by omega)] using this

end Sys2Proof.Machine
end

