-- ==== Sys2Proof/Tests/Slice0.lean ====
section
/-! SUPPORT. Tests of the model on values of the spec (95_test_vectors.md and the rules' own examples), and for every
statement with hypotheses a witness that meets them. -/

namespace Sys2Proof.Tests

open Sys2Proof.Machine

/-! ## Well-formedness (WellFormed.lean): one ill-formed term for each check -/

/-- Two data bytes under LEN = 3 (30_encoding.md R48). -/
theorem test_illformed_absorb : (Instr.absorb 3#32 [0x61#8, 0x62#8]).wellFormed = false := by decide

/-- 0x01 is RESET, not an illegal byte (R51, R52). -/
theorem test_illformed_illegal : (Instr.illegal 0x01#8).wellFormed = false := by decide

theorem test_wellformed_absorb : (Instr.absorb 3#32 [0x61#8, 0x62#8, 0x63#8]).wellFormed = true := by decide

/-! ## Decoding, bytes written out bit by bit from R47, R48, R51, R52 -/

theorem test_decode_reset : decode [0b00000001#8, 0b00000100#8] = .complete .reset [0b00000100#8] := by decide

/-- LEN is big-endian: 00 00 00 02, not 02 00 00 00; the DATA 01 03 are no opcodes (R50, R58). -/
theorem test_decode_absorb :
    decode [0b00000010#8, 0b00000000#8, 0b00000000#8, 0b00000000#8, 0b00000010#8, 0b00000001#8, 0b00000011#8]
      = .complete (.absorb 2#32 [0x01#8, 0x03#8]) [] := by decide

/-- Each LEN byte has its own weight: 12 34 56 78 is 0x12345678 (R50). -/
theorem test_decode_len : lenOfBytes [0x12#8, 0x34#8, 0x56#8, 0x78#8] = 0x12345678#32 := by decide

theorem test_decode_finalize : decode [0b00000011#8] = .complete .finalize [] := by decide

theorem test_decode_getDigest : decode [0b00000100#8] = .complete .getDigest [] := by decide

/-- 0x00 and 0x05 are illegal and take one byte each (R52, 95_test_vectors.md 3.6). -/
theorem test_decode_illegal :
    decode [0b00000000#8, 0b00000101#8] = .complete (.illegal 0x00#8) [0x05#8]
    ∧ decode [0b00000101#8] = .complete (.illegal 0x05#8) [] := by decide

/-- The truncated frame of 95_test_vectors.md 3.7. -/
theorem test_decode_truncated :
    decode [0x02#8, 0x00#8, 0x00#8, 0x00#8, 0x05#8, 0x61#8, 0x62#8]
      = .incomplete (.waitData 5#32 [0x61#8, 0x62#8]) := by decide

/-- Table word 0x02 of 8 bits: an ABSORB with LEN = 0, whose further bits are zero. -/
theorem test_decodeTableWord_absorb : decodeTableWord 8 0x02 = some (.absorb 0 []) := by decide

/-! ## The word codec (95_test_vectors.md 3.1) -/

theorem test_rotl :
    rotl 0x80000000#32 1 = 0x00000001#32 ∧ rotl 0x00000001#32 31 = 0x80000000#32
    ∧ rotl 0x67452301#32 5 = 0xE8A4602C#32 ∧ rotl 0xEFCDAB89#32 30 = 0x7BF36AE2#32 := by decide

theorem test_be32 :
    be32Load [0xDE#8, 0xAD#8, 0xBE#8, 0xEF#8] 0 = 0xDEADBEEF#32
    ∧ be32Store 0x67452301#32 = [0x67#8, 0x45#8, 0x23#8, 0x01#8] := by decide

theorem test_len64Store :
    len64Store 0 0x7A1200#32 = [0#8, 0#8, 0#8, 0#8, 0x00#8, 0x7A#8, 0x12#8, 0x00#8]
    ∧ len64Store 1 0 = [0#8, 0#8, 0#8, 1#8, 0#8, 0#8, 0#8, 0#8] := by decide

/-! ## Schedule, mixing functions, round and transform (95_test_vectors.md 3.2, 3.3; R77, R95) -/

/-- The padded "abc" block (R67). -/
def abcBlock : Vector Byte 64 :=
  blockOf ([0x61#8, 0x62#8, 0x63#8, 0x80#8] ++ List.replicate 59 0x00#8 ++ [0x18#8])

theorem test_schedule_abc :
    (schedule abcBlock).getD 0 0 = 0x61626380#32 ∧ (schedule abcBlock).getD 15 0 = 0x00000018#32
    ∧ (schedule abcBlock).getD 16 0 = 0xC2C4C700#32 ∧ (schedule abcBlock).getD 79 0 = 0x822E0879#32 := by decide +kernel

theorem test_mix :
    mix 0 0xEFCDAB89#32 0x98BADCFE#32 0x10325476#32 = 0x98BADCFE#32
    ∧ mix 1 0xEFCDAB89#32 0x98BADCFE#32 0x10325476#32 = 0x67452301#32
    ∧ mix 2 0xF0F0F0F0#32 0xFF00FF00#32 0x0F0F0F0F#32 = 0xFF00FF00#32
    ∧ mix 3 0xF0F0F0F0#32 0xFF00FF00#32 0x0F0F0F0F#32 = 0x00FF00FF#32 := by decide

/-- Round 0 of the padded "abc" block from the IV (R95). -/
theorem test_round_zero :
    sha1Round 0 0x61626380#32 (workingOf initialChain)
      = { a := 0x0116FC33#32, b := 0x67452301#32, c := 0x7BF36AE2#32, d := 0x98BADCFE#32, e := 0x10325476#32 } := by
  decide

/-- Rounds 0 to 59 of the padded "abc" block (R95, the row t = 59): groups 0, 1 and 2. -/
theorem test_rounds_to_fifty_nine :
    sha1Rounds 0 ((schedule abcBlock).take 60) (workingOf initialChain)
      = { a := 0x3F52DE5A#32, b := 0x09D785FD#32, c := 0x3498BFD4#32, d := 0xF211824F#32, e := 0xD79915AB#32 } := by
  decide +kernel

theorem test_transform_abc :
    transform initialChain abcBlock
      = { h0 := 0xA9993E36#32, h1 := 0x4706816A#32, h2 := 0xBA3E2571#32, h3 := 0x7850C26C#32, h4 := 0x9CD0D89D#32 } := by
  decide +kernel

theorem test_transform_zero :
    transform initialChain (Vector.replicate 64 0)
      = { h0 := 0x92B404E5#32, h1 := 0x56588CED#32, h2 := 0x6C1ACD4E#32, h3 := 0xBF053F68#32, h4 := 0x09F73A93#32 } := by
  decide +kernel

/-! ## The counter (R105, every row) -/

theorem test_counterAdd_rows :
    counterAdd 0x00000000#32 0x00000000#32 0x00000003#32 = (0x00000000#32, 0x00000018#32)
    ∧ counterAdd 0x00000000#32 0xFFFFFFF8#32 0x00000001#32 = (0x00000001#32, 0x00000000#32)
    ∧ counterAdd 0x00000000#32 0xFFFFFFF0#32 0x00000004#32 = (0x00000001#32, 0x00000010#32)
    ∧ counterAdd 0x00000000#32 0x00000000#32 0x20000000#32 = (0x00000001#32, 0x00000000#32)
    ∧ counterAdd 0x00000000#32 0x00000000#32 0xFFFFFFFF#32 = (0x00000007#32, 0xFFFFFFF8#32)
    ∧ counterAdd 0x00000002#32 0xFFFFFFFF#32 0x20000001#32 = (0x00000004#32, 0x00000007#32)
    ∧ counterAdd 0xFFFFFFFF#32 0xFFFFFFF8#32 0x00000001#32 = (0x00000000#32, 0x00000000#32)
    ∧ counterAdd 0x00000005#32 0x00000008#32 0x00000000#32 = (0x00000005#32, 0x00000008#32) := by decide

/-! ## The commands, one step each -/

/-- The next state of an outcome, for reading fields off it; a stop reads as the state after reset. -/
def nextOf : Host.Outcome State Fault Refusal → State
  | .next t => t
  | .fault _ => State.reset
  | .refused _ => State.reset

/-- A state in each of the two phases after IDLE. -/
def absorbing : State := { State.reset with phase := .absorbing, countLo := 8 }
def finalized : State := { State.reset with phase := .finalized, digest := Vector.replicate 20 0xAA#8 }

/-- The status byte of every frame in every phase: the table of 95_test_vectors.md 3.6. -/
theorem test_status_bytes :
    [State.reset, absorbing, finalized].map (fun s => (nextOf (exec .reset s)).responseChannel) = [[0x00#8], [0x00#8], [0x00#8]]
    ∧ [State.reset, absorbing, finalized].map (fun s => (nextOf (exec (.absorb 1 [0x61#8]) s)).responseChannel)
        = [[0x08#8], [0x08#8], [0x11#8]]
    ∧ [State.reset, absorbing, finalized].map (fun s => (nextOf (exec (.absorb 0 []) s)).responseChannel)
        = [[0x00#8], [0x08#8], [0x11#8]]
    ∧ [State.reset, absorbing].map (fun s => (nextOf (exec .getDigest s)).responseChannel) = [[0x03#8], [0x0B#8]]
    ∧ [State.reset, absorbing, finalized].map (fun s => (nextOf (exec (.illegal 0xFF#8) s)).responseChannel)
        = [[0x04#8], [0x0C#8], [0x14#8]] := by decide +kernel

theorem test_finalize_status_bytes :
    [State.reset, absorbing, finalized].map (fun s => (nextOf (exec .finalize s)).responseChannel)
      = [[0x10#8], [0x10#8], [0x12#8]] := by decide +kernel

/-- `ABSORB "abc"` from hard reset: COUNT 0x18, FILL 3, BUF[0..2] = 61 62 63, H still the IV (95_test_vectors.md 3.4, P1). -/
theorem test_absorb_abc :
    let t := nextOf (exec (.absorb 3 [0x61#8, 0x62#8, 0x63#8]) State.reset)
    t.count = 0x18#64 ∧ t.fill = 3 ∧ t.pending = [0x61#8, 0x62#8, 0x63#8] ∧ t.h = initialChain ∧ t.phase = .absorbing := by
  decide +kernel

/-- 63 bytes and then one: exactly one transform, FILL 0 (R110, S3). -/
theorem test_absorb_boundary :
    let t := nextOf (exec (.absorb 63 (List.replicate 63 0x61#8)) State.reset)
    let u := nextOf (exec (.absorb 1 [0x61#8]) t)
    t.transformsRun = 0 ∧ t.fill = 63 ∧ u.transformsRun = 1 ∧ u.fill = 0 ∧ u.countLo = 0x200#32
    ∧ u.h = { h0 := 0xDA4968EB#32, h1 := 0x2E377C1F#32, h2 := 0x884E8F52#32, h3 := 0x83524BEB#32, h4 := 0xE74EBDBD#32 } := by
  decide +kernel

/-- FINALIZE after `ABSORB "abc"` (R118, P1): one transform, the 40-digit digest of 90_conflicts.md C1, COUNT 0x200. -/
theorem test_finalize_abc :
    let t := nextOf (exec .finalize (nextOf (exec (.absorb 3 [0x61#8, 0x62#8, 0x63#8]) State.reset)))
    t.digest.toList = [0xA9#8, 0x99#8, 0x3E#8, 0x36#8, 0x47#8, 0x06#8, 0x81#8, 0x6A#8, 0xBA#8, 0x3E#8,
                       0x25#8, 0x71#8, 0x78#8, 0x50#8, 0xC2#8, 0x6C#8, 0x9C#8, 0xD0#8, 0xD8#8, 0x9D#8]
    ∧ t.transformsRun = 1 ∧ t.count = 0x200#64 ∧ t.fill = 0 := by decide +kernel

/-- FINALIZE at FILL = 56, the two-block path (R119). -/
theorem test_finalize_two_blocks :
    let t := nextOf (exec .finalize (nextOf (exec (.absorb 56 (List.replicate 56 0x61#8)) State.reset)))
    t.transformsRun = 2
    ∧ t.digest.toList = [0xC2#8, 0xDB#8, 0x33#8, 0x0F#8, 0x60#8, 0x83#8, 0x85#8, 0x4C#8, 0x99#8, 0xD4#8,
                         0xB5#8, 0xBF#8, 0xB6#8, 0xE8#8, 0xF2#8, 0x9F#8, 0x20#8, 0x1B#8, 0xE6#8, 0x99#8] := by
  decide +kernel

/-- GET_DIGEST in FINALIZED: the status byte, then DIGEST[0..19] (R120). -/
theorem test_getDigest_bytes :
    (nextOf (exec .getDigest finalized)).responseChannel = 0x10#8 :: List.replicate 20 0xAA#8 := by decide

/-- A misuse sets the ghost flag (R133); a command that executes does not. -/
theorem test_misuse_flag :
    (nextOf (exec .getDigest State.reset)).misuseSeen = true
    ∧ (nextOf (exec (.absorb 0 []) State.reset)).misuseSeen = false := by decide

/-- FINALIZE as the first frame after reset gives the digest of the empty message (S2). -/
theorem test_step_finalize_first :
    (nextOf (step (State.reset.withFetchWord 8 0x03))).digest.toList
      = [0xDA#8, 0x39#8, 0xA3#8, 0xEE#8, 0x5E#8, 0x6B#8, 0x4B#8, 0x0D#8, 0x32#8, 0x55#8,
         0xBF#8, 0xEF#8, 0x95#8, 0x60#8, 0x18#8, 0x90#8, 0xAF#8, 0xD8#8, 0x07#8, 0x09#8] := by decide +kernel

/-! ## The step (95_test_vectors.md 3.7) -/

/-- The bytes of a truncated ABSORB, 3.7. -/
def truncated : State := State.reset.send [0x02#8, 0x00#8, 0x00#8, 0x00#8, 0x05#8, 0x61#8, 0x62#8]

/-- They move DEC, leave the digest state alone and emit nothing. -/
theorem test_step_truncated :
    (nextOf (step truncated)).dec = .waitData 5#32 [0x61#8, 0x62#8]
    ∧ (nextOf (step truncated)).responseChannel = [] ∧ (nextOf (step truncated)).countLo = 0 := by decide

/-- Then there is no step: stuck, not final (R150). -/
theorem test_step_stuck : step (nextOf (step truncated)) = .fault .frameTruncated := by rfl

/-- A hard reset in the middle of the frame discards it (R141). -/
theorem test_step_hardReset :
    (nextOf (step (nextOf (step truncated)).assertHardReset)).dec = .waitOp
    ∧ (nextOf (step (nextOf (step truncated)).assertHardReset)).hardResetLine = false := by decide

/-- The three missing bytes complete the frame, wherever the pieces were cut (R57). -/
theorem test_step_resumes :
    (nextOf (step ((nextOf (step truncated)).send [0x01#8, 0x03#8, 0x04#8]))).pending
      = [0x61#8, 0x62#8, 0x01#8, 0x03#8, 0x04#8] := by decide +kernel

/-- A run on a finite command stream ends where no byte is left (R155 item 1). -/
theorem test_step_final : step State.reset = .fault .commandChannelEmpty := by rfl

/-! ## Witnesses: the hypotheses of each statement are met together -/

theorem witness_DecodeOfEncodeIsTheCommand :
    ([.reset, .absorb 0 [], .absorb 2 [0x01#8, 0xFF#8], .finalize, .getDigest, .illegal 0x00#8, .illegal 0x05#8,
      .illegal 0xFF#8] : List Instr).all (·.wellFormed) = true := by decide

theorem witness_DecodedFrameIsItsEncoding :
    decode [0x02#8, 0#8, 0#8, 0#8, 0x01#8, 0x61#8, 0x03#8] = .complete (.absorb 1 [0x61#8]) [0x03#8] := by decide

theorem witness_FrameLengthFromFirstBytes :
    decode [0x02#8, 0#8, 0#8, 0#8, 0x00#8, 0x03#8] = .complete (.absorb 0 []) [0x03#8]
    ∧ decode [0x03#8, 0x02#8] = .complete .finalize [0x02#8] := by decide

theorem witness_EveryDataByteIsData :
    (0x00#8).toNat * 2 ^ 24 + (0x00#8).toNat * 2 ^ 16 + (0x00#8).toNat * 2 ^ 8 + (0x02#8).toNat
      ≤ [0x01#8, 0x04#8, 0x03#8].length := by decide

theorem witness_DecodingResumesAtDec : readFrame .waitOp [0x02#8, 0#8] = .incomplete (.waitLen [0#8]) := by decide

theorem witness_CodecRoundTrips : 1 + 3 < [0#8, 0xDE#8, 0xAD#8, 0xBE#8, 0xEF#8].length := by decide

/-- Boundary values of both clauses: the last byte of the length field and of the digest. -/
theorem witness_SerialisationIsBigEndian :
    (len64Store 0x01020304#32 0x05060708#32).getD 7 0 = 0x08#8
    ∧ (digestBytes { h0 := 0, h1 := 0, h2 := 0, h3 := 0, h4 := 0x9CD0D89D#32 }).toList.getD (4 * 4 + 3) 0 = 0x9D#8 := by
  decide

/-- Boundary values of the two ranges: rounds 15 and 16. -/
theorem witness_ScheduleRecurrence : (15 < 16) ∧ (16 ≤ 16 ∧ 16 < 80) ∧ (16 ≤ 79 ∧ 79 < 80) := by decide

theorem witness_CircularScheduleEqualsSchedule : circularWord 16 (circularAt abcBlock 16) = 0xC2C4C700#32 := by decide +kernel

theorem witness_ScheduleIsLinear : (79 : Nat) < 80 := by decide

/-- The rounds themselves are a sequence as the statement's hypotheses ask for. -/
def roundTrace (h : Chain) (blk : Vector Byte 64) : Nat → Working
  | 0 => workingOf h
  | t + 1 => sha1Round t ((schedule blk).getD t 0) (roundTrace h blk t)

theorem witness_TransformIsEightyRounds :
    roundTrace initialChain abcBlock 0 = workingOf initialChain
    ∧ ∀ t, t < 80 → roundTrace initialChain abcBlock (t + 1)
        = sha1Round t ((schedule abcBlock).getD t 0) (roundTrace initialChain abcBlock t) :=
  ⟨rfl, fun _ _ => rfl⟩

theorem witness_AbsorbTransformCount : (List.replicate 64 0x61#8).length < 2 ^ 32 := by decide

theorem witness_ChunkingInvariance :
    [0x61#8].length < 2 ^ 32 ∧ [0x62#8].length < 2 ^ 32 ∧ ([0x61#8] ++ [0x62#8]).length < 2 ^ 32 := by decide

theorem witness_ThreePartAbsorbEqualsLoop : (List.replicate 200 0x61#8).length < 2 ^ 32 := by decide +kernel

theorem witness_ResetCompletes : finalized.phase = .finalized ∧ Instr.getDigest ≠ .reset := by decide

theorem witness_AbsorbCompletes :
    State.reset.phase ≠ .finalized ∧ [0x61#8, 0x62#8, 0x63#8].length = (3#32).toNat ∧ 0 < (3#32).toNat := by decide

/-- The clauses on a frame that completes no block: one byte at fill level 1. -/
theorem witness_AbsorbFrame :
    absorbing.phase ≠ .finalized ∧ [0x61#8].length = (1#32).toNat ∧ 0 < (1#32).toNat
    ∧ 0 < absorbing.fill.toNat ∧ absorbing.fill.toNat + (1#32).toNat < 64 := by decide

/-- The last value at which no block completes: FILL + LEN = 63. -/
theorem witness_AbsorbFrame_boundary :
    absorbing.phase ≠ .finalized ∧ (List.replicate 62 0x61#8).length = (62#32).toNat ∧ 0 < (62#32).toNat
    ∧ 0 < absorbing.fill.toNat ∧ absorbing.fill.toNat + (62#32).toNat = 63 := by decide

theorem witness_EmptyAbsorbIsNoOp : State.reset.phase ≠ .finalized ∧ absorbing.phase ≠ .finalized := by decide

theorem witness_AbsorbAfterFinalIsReported : finalized.phase = .finalized := by decide

theorem witness_AbsorbExtendsTheStream :
    State.reset.Holds [] ∧ State.reset.phase ≠ .finalized ∧ [0x61#8].length = (1#32).toNat := by decide

theorem witness_PaddingIsOneAbsorb : (len64Store 0 0x18#32).length = 8 := by decide

theorem witness_FinalizeCompletes : State.reset.phase ≠ .finalized ∧ absorbing.phase ≠ .finalized := by decide

theorem witness_FinalizeFrame : absorbing.phase ≠ .finalized := by decide

theorem witness_FinalizeTwiceIsReported : finalized.phase = .finalized := by decide

/-- A state that holds a message that is not empty: the one `ABSORB "a"` leaves. -/
theorem witness_FinalizeGivesTheMessageDigest :
    (nextOf (exec (.absorb 1 [0x61#8]) State.reset)).Holds [0x61#8]
    ∧ (nextOf (exec (.absorb 1 [0x61#8]) State.reset)).phase ≠ .finalized := by decide +kernel

theorem witness_MessageDigestIsSha1 : ∀ p ∈ [[0x61#8], [], [0x62#8, 0x63#8]], p.length ≤ Config.maxFrameLen := by decide

theorem witness_ChunkedDigestIndependentOfPieceSize : 0 < 8000 ∧ 8000 ≤ Config.maxFrameLen := by decide

theorem witness_GetDigestCompletes :
    finalized.phase = .finalized ∧ State.reset.phase ≠ .finalized ∧ absorbing.phase ≠ .finalized := by decide

/-- Boundary values of the two ranges of illegal bytes. -/
theorem witness_IllegalOpcodeConsumesOneByte :
    (State.reset.send [0x05#8]).hardResetLine = false ∧ (State.reset.send [0x05#8]).dec = .waitOp
    ∧ (State.reset.send [0x05#8]).commandChannel = 0x05#8 :: []
    ∧ (0x05#8 = 0x00#8 ∨ 0x05#8 ≤ 0x05#8) ∧ (0x00#8 = 0x00#8 ∨ 0x05#8 ≤ 0x00#8) ∧ (0xFF#8 = 0x00#8 ∨ 0x05#8 ≤ 0xFF#8) := by
  decide

theorem witness_MisuseChangesNothing :
    (State.reset.send [0x04#8, 0x01#8]).hardResetLine = false
    ∧ readFrame (State.reset.send [0x04#8, 0x01#8]).dec (State.reset.send [0x04#8, 0x01#8]).commandChannel
        = .complete .getDigest [0x01#8]
    ∧ codeOf .getDigest (State.reset.send [0x04#8, 0x01#8]).phase ≠ .ok := by decide

theorem witness_MisuseFlagIsNeverCleared :
    ∃ s t : State, step s = .next t ∧ s.misuseSeen = true :=
  ⟨{ State.reset with misuseSeen := true, hardResetLine := true }, _, rfl, rfl⟩

theorem witness_OnlyResetAndTransformWriteH :
    Instr.absorb 1 [0x61#8] ≠ .reset
    ∧ (nextOf (exec (.absorb 1 [0x61#8]) State.reset)).transformsRun = State.reset.transformsRun := by decide +kernel

theorem witness_DigestIsImmutable :
    Instr.finalize ≠ .reset ∧ (Instr.finalize = .finalize → finalized.phase = .finalized) := by decide

theorem witness_StepRunsTheDecodedCommand :
    (State.reset.send [0x03#8, 0x04#8]).hardResetLine = false
    ∧ readFrame (State.reset.send [0x03#8, 0x04#8]).dec (State.reset.send [0x03#8, 0x04#8]).commandChannel
        = .complete .finalize [0x04#8] := by decide

theorem witness_PartialFrameOnlyMovesDec :
    truncated.hardResetLine = false ∧ truncated.commandChannel ≠ []
    ∧ readFrame truncated.dec truncated.commandChannel = .incomplete (.waitData 5#32 [0x61#8, 0x62#8]) := by decide

theorem witness_NoByteNoStep :
    State.reset.hardResetLine = false ∧ State.reset.Final
    ∧ (nextOf (step truncated)).hardResetLine = false ∧ (nextOf (step truncated)).Stuck := by decide

theorem witness_HardResetStep : truncated.assertHardReset.hardResetLine = true := by decide

theorem witness_HardResetKeepsBookkeeping : truncated.assertHardReset.hardResetLine = true := by decide

theorem witness_StepKeepsTheInvariant : ∃ s t : State, s.Inv ∧ step s = .next t :=
  ⟨State.reset.send [0x03#8], _, by decide, rfl⟩

theorem witness_WipedTransientsStayZero :
    ∃ s t : State, step s = .next t ∧ s.config.wipeTransients = true ∧ s.transients = .zero :=
  ⟨State.reset.send [0x03#8], _, rfl, rfl, rfl⟩

theorem witness_ChannelsAreInOrder : ∃ s t : State, s.hardResetLine = false ∧ step s = .next t :=
  ⟨State.reset.send [0x01#8, 0x04#8], _, rfl, rfl⟩

theorem witness_RunOfWholeFrames :
    let s := State.reset.send ([Instr.reset, .absorb 1 [0x61#8], .illegal 0x00#8].flatMap encode)
    s.hardResetLine = false ∧ s.dec = .waitOp
    ∧ (∀ i ∈ [Instr.reset, .absorb 1 [0x61#8], .illegal 0x00#8], i.wellFormed = true)
    ∧ s.commandChannel = [Instr.reset, .absorb 1 [0x61#8], .illegal 0x00#8].flatMap encode := by decide

/-- Two different states that a host cannot tell apart: BUF differs above the fill level. -/
theorem witness_HiddenStateIsUnobservable :
    SameForHost absorbing { absorbing with buf := absorbing.buf.setIfInBounds 63 0xFF#8 }
    ∧ absorbing ≠ { absorbing with buf := absorbing.buf.setIfInBounds 63 0xFF#8 } := by decide

/-! ## Progress and final runs (R154, R155) -/

/-- A host that sent GET_DIGEST and RESET, and the state after `n` steps of the block. -/
def twoFrames : Nat → State
  | 0 => State.reset.send [0x04#8, 0x01#8]
  | 1 => nextOf (step (State.reset.send [0x04#8, 0x01#8]))
  | _ => nextOf (step (nextOf (step (State.reset.send [0x04#8, 0x01#8]))))

/-- The block's two steps, and then nothing more happens. -/
def twoSteps : Nat → RunAction
  | 0 => .block
  | 1 => .block
  | _ => .idle

/-- A weakly fair run whose first state holds two whole frames; the second is RESET. -/
theorem witness_CompleteFramesAreEventuallyExecuted :
    Execution twoFrames twoSteps ∧ WeaklyFair twoFrames twoSteps
    ∧ (framesOf (twoFrames 0).dec (twoFrames 0).commandChannel)[1]? = some .reset := by
  refine ⟨fun n => ?_, fun n h => ?_, by decide⟩
  · match n with
    | 0 => rfl
    | 1 => rfl
    | _ + 2 => rfl
  · exfalso
    obtain ⟨t, ht⟩ := h (n + 2) (by omega)
    have hs : step (twoFrames (n + 2)) = .fault .commandChannelEmpty := rfl
    rw [hs] at ht
    cases ht

/-- Two frames executed: the run is final. -/
theorem witness_RunsReadToTheEndAreFinal :
    ∃ r : RunLog, RunLog.play [.send [0x04#8, 0x01#8], .block, .take 1, .block] (.start State.reset) = some r
      ∧ r.read = r.earlierBytes + r.sent.length ∧ r.state.dec = .waitOp ∧ State.reset.hardResetLine = false
      ∧ RunAction.assertHardReset ∉ [.send [0x04#8, 0x01#8], .block, .take 1, .block] ∧ r.state.Final ∧ r.responses = 2 :=
  ⟨_, rfl, by decide⟩

/-- A hard reset that discards a whole unread frame: the state is that of a boundary, the run is not final (R141, R155). -/
theorem test_discarded_frame_is_not_final :
    ∃ r : RunLog, RunLog.play [.send [0x01#8], .assertHardReset, .block] (.start State.reset) = some r
      ∧ r.state.Final ∧ r.frames = 1 ∧ r.responses = 0 ∧ ¬ r.Final :=
  ⟨_, rfl, by decide⟩

theorem witness_DiscardedBytesAreNeverFinal :
    ∃ r r' : RunLog, RunLog.play [.send [0x01#8], .assertHardReset] (.start State.reset) = some r
      ∧ r.state.hardResetLine = true ∧ r.state.commandChannel ≠ []
      ∧ RunLog.play [.block, .send [0x01#8], .block] r = some r' :=
  ⟨_, _, rfl, by decide, by decide, rfl⟩

end Sys2Proof.Tests
end

