-- ==== Sys2Proof/Proofs/Transients.lean ====
section
/-! PROOF. What the commands and the step can do to the configuration and to the transient state (R9, R25, R93). -/

namespace Sys2Proof.Machine

/-- With WIPE_TRANSIENTS a transform leaves zeros behind (42_compression.md R93). -/
theorem transientsAfter_of_wipe {config : Config} (k : Nat) (h : config.wipeTransients = true) :
    transientsAfter config k = .zero :=
  if_pos h

/-- ABSORB rewrites the transients only with what a transform leaves behind. -/
theorem absorbFrame_transients (len : Word) (data : List Byte) (s : State) :
    (s.absorbFrame len data).transients = s.transients
    ∨ (s.absorbFrame len data).transients = transientsAfter s.config s.freeIndex := by
  unfold State.absorbFrame
  split
  · simp
  · simp only [leaveUnspecified_transients]
    split <;> simp

/-- FINALIZE rewrites the transients only with what a transform leaves behind. -/
theorem finalizeFrame_transients (s : State) :
    s.finalizeFrame.transients = s.transients
    ∨ s.finalizeFrame.transients = transientsAfter s.config s.freeIndex := by
  simp only [State.finalizeFrame, leaveUnspecified_transients]
  split <;> simp

/-- No command writes the configuration. -/
theorem exec_config {i : Instr} {s t : State} (h : exec i s = .next t) : t.config = s.config := by
  cases i with
  | reset => cases h; simp
  | absorb len data =>
    rcases execAbsorb_cases len data s with ⟨-, e⟩ | ⟨-, e⟩ <;> cases e.symm.trans h <;> simp
  | finalize => rcases execFinalize_cases s with ⟨-, e⟩ | ⟨-, e⟩ <;> cases e.symm.trans h <;> simp
  | getDigest => rcases execGetDigest_cases s with ⟨-, e⟩ | ⟨-, e⟩ <;> cases e.symm.trans h <;> simp
  | illegal op => cases h; simp

/-- A command leaves the transients alone or, if it ran a transform, leaves what the transform does. -/
theorem exec_transients {i : Instr} {s t : State} (h : exec i s = .next t) :
    t.transients = s.transients ∨ t.transients = transientsAfter s.config s.freeIndex := by
  cases i with
  | reset => cases h; simp
  | absorb len data =>
    rcases execAbsorb_cases len data s with ⟨-, e⟩ | ⟨-, e⟩ <;> cases e.symm.trans h
    · simp
    · simpa using absorbFrame_transients len data s
  | finalize =>
    rcases execFinalize_cases s with ⟨-, e⟩ | ⟨-, e⟩ <;> cases e.symm.trans h
    · simp
    · simpa using finalizeFrame_transients s
  | getDigest => rcases execGetDigest_cases s with ⟨-, e⟩ | ⟨-, e⟩ <;> cases e.symm.trans h <;> simp
  | illegal op => cases h; simp

/-- No step writes the configuration, a hard reset included (00_scope.md R9). -/
theorem step_config {s t : State} (h : step s = .next t) : t.config = s.config := by
  rcases step_cases h with ⟨-, rfl⟩ | ⟨-, i, rest, -, he⟩ | ⟨-, d, -, -, rfl⟩
  · simp
  · simpa using exec_config he
  · simp

/-- A step zeroes the transients, leaves them alone, or leaves what a transform does. -/
theorem step_transients {s t : State} (h : step s = .next t) :
    t.transients = .zero ∨ t.transients = s.transients
    ∨ t.transients = transientsAfter s.config s.freeIndex := by
  rcases step_cases h with ⟨-, rfl⟩ | ⟨-, i, rest, -, he⟩ | ⟨-, d, -, -, rfl⟩
  · simp
  · exact .inr (by simpa using exec_transients he)
  · simp

/-- Settles O51, from what a step can write: the configuration never, the transients only zeros or a transform's leavings,
which WIPE_TRANSIENTS makes zeros. -/
theorem wipedTransientsStayZero : Obligations.WipedTransientsStayZero := by
  intro s t h
  refine ⟨step_config h, fun hwipe hzero => ?_⟩
  rcases step_transients h with ht | ht | ht
  · exact ht
  · exact ht.trans hzero
  · exact ht.trans (transientsAfter_of_wipe s.freeIndex hwipe)

end Sys2Proof.Machine
end

