-- ==== Sys2Proof/Proofs/AbsorbStream.lean ====
section
/-! PROOF. Absorbing as an operation on the byte stream: the counter is one 64-bit number, two absorbs are one, and the
padding is one absorb (43_streaming_buffer.md R96, R98, R102; 44_finalizer.md R114, R115). -/

namespace Sys2Proof.Machine

/-! ## The counter is one 64-bit number (R19, R96) -/

/-- The value of a 64-bit counter from its two words. -/
theorem append_toNat (hi lo : Word) : (hi ++ lo : BitVec 64).toNat = hi.toNat * 2 ^ 32 + lo.toNat := by
  rw [show (hi ++ lo : BitVec 64).toNat = (hi ++ lo).toNat from rfl, BitVec.toNat_append,
    ← Nat.shiftLeft_add_eq_or_of_lt lo.isLt, Nat.shiftLeft_eq]

/-- The 64-bit value determines the two words. -/
theorem words_eq_of_append_eq {hi lo hi' lo' : Word} (h : (hi ++ lo : BitVec 64) = hi' ++ lo') : hi = hi' ∧ lo = lo' := by
  have hn := congrArg BitVec.toNat h
  rw [append_toNat, append_toNat] at hn
  have hl := lo.isLt
  have hl' := lo'.isLt
  exact ⟨BitVec.eq_of_toNat_eq (by omega), BitVec.eq_of_toNat_eq (by omega)⟩

/-- The two-word update is addition of 8n modulo 2^64 (R96). -/
theorem counterAdd_append (hi lo n : Word) :
    ((counterAdd hi lo n).1 ++ (counterAdd hi lo n).2 : BitVec 64)
      = (hi ++ lo : BitVec 64) + BitVec.ofNat 64 (8 * n.toNat) := by
  have hh := hi.isLt
  have hl := lo.isLt
  have hn := n.isLt
  apply BitVec.eq_of_toNat_eq
  rw [BitVec.toNat_add, append_toNat, append_toNat]
  simp only [counterAdd, BitVec.lt_def]
  split
  all_goals
    rename_i hcarry
    simp [BitVec.extractLsb'_toNat, BitVec.toNat_add, BitVec.toNat_shiftLeft, Nat.shiftLeft_eq,
      Nat.shiftRight_eq_div_pow] at hcarry ⊢
    omega

/-- Two updates are one, as long as the byte counts add up without wrapping. -/
theorem counterAdd_counterAdd (hi lo : Word) {m n k : Word} (h : k.toNat = m.toNat + n.toNat) :
    counterAdd (counterAdd hi lo m).1 (counterAdd hi lo m).2 n = counterAdd hi lo k := by
  have h64 : ((counterAdd (counterAdd hi lo m).1 (counterAdd hi lo m).2 n).1
        ++ (counterAdd (counterAdd hi lo m).1 (counterAdd hi lo m).2 n).2 : BitVec 64)
      = (counterAdd hi lo k).1 ++ (counterAdd hi lo k).2 := by
    rw [counterAdd_append, counterAdd_append, counterAdd_append, h, Nat.mul_add, BitVec.ofNat_add, BitVec.add_assoc]
  obtain ⟨h1, h2⟩ := words_eq_of_append_eq h64
  exact Prod.ext h1 h2

/-- n of R96, modulo the word's width. -/
theorem byteCount_toNat (data : List Byte) : (byteCount data).toNat = data.length % 2 ^ 32 :=
  BitVec.toNat_ofNat ..

/-! ## `absorb_bytes` by its effect on the stream (R98, R101, R102) -/

theorem fill_toNat_lt (s : State) : s.fill.toNat < 64 := s.fill.isLt

/-- BUF[0..FILL-1] has FILL bytes (R21). -/
@[simp] theorem pending_length (s : State) : s.pending.length = s.fill.toNat := by
  have := fill_toNat_lt s
  simp [State.pending]; omega

/-- COUNT after an absorb (R97). -/
theorem absorbBytes_count (data : List Byte) (s : State) :
    (s.absorbBytes data).count = s.count + BitVec.ofNat 64 (8 * (data.length % 2 ^ 32)) := by
  rw [← byteCount_toNat]
  exact counterAdd_append s.countHi s.countLo (byteCount data)

/-- FILL after an absorb (R101). -/
theorem absorbBytes_fill (data : List Byte) (s : State) :
    (s.absorbBytes data).fill.toNat = (s.fill.toNat + data.length) % 64 := by
  have h : (s.absorbBytes data).fill.toNat = (s.fill.toNat + (byteCount data).toNat) % 64 :=
    counterAdd_fill s.countHi s.countLo (byteCount data)
  rw [h, byteCount_toNat]
  omega

/-- FILL is where the absorb loop leaves j (R98). -/
theorem absorbBytes_fill_eq_j (data : List Byte) (s : State) :
    (s.absorbBytes data).fill.toNat = (absorbLoop s.filling data).j := by
  rw [absorbBytes_fill, absorbLoop_j data (f := s.filling) (fill_toNat_lt s), filling_j]

/-- H after an absorb: the full blocks of BUF[0..FILL-1] followed by the data. -/
theorem absorbBytes_h_eq_hashStream (data : List Byte) (s : State) :
    (s.absorbBytes data).h = hashStream s.h (s.pending ++ data) :=
  (absorbLoop_stream data (f := s.filling) (fill_toNat_lt s)).1

/-- BUF[0..FILL-1] after an absorb: the bytes left over. -/
theorem absorbBytes_pending (data : List Byte) (s : State) :
    (s.absorbBytes data).pending = streamTail (s.pending ++ data) := by
  rw [State.pending, absorbBytes_fill_eq_j]
  exact (absorbLoop_stream data (f := s.filling) (fill_toNat_lt s)).2

/-- How many transforms an absorb runs (R101). -/
theorem absorbBytes_transformsRun_eq (data : List Byte) (s : State) :
    (s.absorbBytes data).transformsRun = s.transformsRun + (s.fill.toNat + data.length) / 64 := by
  rw [absorbBytes_transformsRun, absorbLoop_runs data (f := s.filling) (fill_toNat_lt s)]
  simp

/-! ## Two absorbs are one (R102) -/

/-- The loop's transform counter only counts. -/
theorem absorbLoop_add_runs (r : Nat) (data : List Byte) : ∀ f : Filling,
    absorbLoop { f with runs := f.runs + r } data
      = { absorbLoop f data with runs := (absorbLoop f data).runs + r } := by
  induction data with
  | nil => intro f; rfl
  | cons b bs ih =>
    intro f
    have hb : absorbByte { f with runs := f.runs + r } b = { absorbByte f b with runs := (absorbByte f b).runs + r } := by
      by_cases h : f.j + 1 = 64 <;> simp [absorbByte, h]
      omega
    rw [absorbLoop_cons, hb, ih, absorbLoop_cons]

/-- The loop variables that an absorb hands to the next one: those it ended with, the transforms counted anew. -/
theorem filling_absorbBytes (a : List Byte) (s : State) :
    (s.absorbBytes a).filling = { absorbLoop s.filling a with runs := 0 } := by
  simp [State.filling, absorbBytes_fill_eq_j]

/-- The second of two loops, run on counted-anew variables, is the rest of the one long loop. -/
theorem absorbLoop_filling_absorbBytes (a b : List Byte) (s : State) :
    { absorbLoop (s.absorbBytes a).filling b with
        runs := (absorbLoop (s.absorbBytes a).filling b).runs + (absorbLoop s.filling a).runs }
      = absorbLoop s.filling (a ++ b) := by
  rw [← absorbLoop_add_runs, filling_absorbBytes, absorbLoop_append]
  simp

/-- Two absorbs of at most one frame's bytes together are one absorb, in every field (R102). -/
theorem absorbBytes_absorbBytes {a b : List Byte} (h : (a ++ b).length < 2 ^ 32) (s : State) :
    (s.absorbBytes a).absorbBytes b = s.absorbBytes (a ++ b) := by
  have hn : (byteCount (a ++ b)).toNat = (byteCount a).toNat + (byteCount b).toNat := by
    simp only [byteCount_toNat, List.length_append] at h ⊢
    omega
  have hc := counterAdd_counterAdd s.countHi s.countLo hn
  have hf := absorbLoop_filling_absorbBytes a b s
  conv_rhs => rw [State.absorbBytes, ← hf, ← hc]
  rw [State.absorbBytes]
  simp [Nat.add_assoc, Nat.add_comm]

/-! ## Streams cut in two (R102) -/

/-- A stream is less than a block, or a block and a stream: induction block by block (R14). -/
theorem stream_induction {P : List Byte → Prop} (short : ∀ a : List Byte, a.length < 64 → P a)
    (block : ∀ blk rest : List Byte, blk.length = 64 → P rest → P (blk ++ rest)) (a : List Byte) : P a := by
  induction hn : a.length using Nat.strong_induction_on generalizing a with
  | _ n ih =>
    by_cases hl : a.length < 64
    · exact short a hl
    · rw [← List.take_append_drop 64 a]
      exact block _ _ (by simp; omega) (ih (a.drop 64).length (by simp; omega) _ rfl)

/-- The blocks of a longer stream continue from those of its front (R79). -/
theorem hashStream_append (a b : List Byte) : ∀ h : Chain,
    hashStream h (a ++ b) = hashStream (hashStream h a) (streamTail a ++ b) := by
  induction a using stream_induction with
  | short a hl => intro h; rw [hashStream_of_short h hl, streamTail_of_short hl]
  | block blk rest hl ih =>
    intro h
    rw [List.append_assoc, hashStream_block h hl, hashStream_block h hl, streamTail_block hl, ih]

/-- Of a stream's front only the bytes that form no block yet matter to what is left over. -/
theorem streamTail_append (a b : List Byte) : streamTail (a ++ b) = streamTail (streamTail a ++ b) := by
  induction a using stream_induction with
  | short a hl => rw [streamTail_of_short hl]
  | block blk rest hl ih => rw [List.append_assoc, streamTail_block hl, streamTail_block hl, ih]

/-- The bit length of a longer stream. -/
theorem bitLength_append (a b : List Byte) : bitLength (a ++ b) = bitLength a + BitVec.ofNat 64 (8 * b.length) := by
  rw [bitLength, bitLength, List.length_append, Nat.mul_add, BitVec.ofNat_add]

/-! ## The end of an absorbing frame keeps COUNT and BUF[0..FILL-1] (R100) -/

/-- The free values stand from FILL on, so BUF[0..FILL-1] is kept (R21). -/
@[simp] theorem leaveUnspecified_pending (r : Nat) (s : State) : (s.leaveUnspecified r).pending = s.pending := by
  simp only [State.pending, leaveUnspecified_fill, leaveUnspecified_buf]
  apply List.ext_getElem
  · simp
  · intro i h1 h2
    simp only [List.length_take] at h1
    rw [List.getElem_take, List.getElem_take, Vector.getElem_toList, Vector.getElem_toList]
    simp [unspecifiedTail, show i < s.fill.toNat by omega]

@[simp] theorem absorbFrame_count (len : Word) (data : List Byte) (s : State) :
    (s.absorbFrame len data).count = (s.absorbBytes data).count := by
  simp [State.count]

@[simp] theorem absorbFrame_pending (len : Word) (data : List Byte) (s : State) :
    (s.absorbFrame len data).pending = (s.absorbBytes data).pending := by
  unfold State.absorbFrame
  split
  · rfl
  · exact leaveUnspecified_pending s.transformsRun (s.absorbBytes data)

/-! ## The padding is one absorb (44_finalizer.md R114, R115) -/

/-- The padding loop, with fuel for them, absorbs the zero bytes that lead to FILL = 56. -/
theorem padZeros_eq_absorbBytes (k : Nat) : ∀ s : State, (120 - s.fill.toNat) % 64 ≤ k →
    State.padZeros k s = s.absorbBytes (List.replicate ((120 - s.fill.toNat) % 64) 0#8) := by
  induction k with
  | zero => intro s hk; simp [padZeros_zero, Nat.le_zero.mp hk]
  | succ k ih =>
    intro s hk
    have hlt := fill_toNat_lt s
    rw [padZeros_succ]
    split
    · next h56 =>
      have hz : (120 - s.fill.toNat) % 64 = 0 := by rw [h56]; rfl
      rw [hz, List.replicate_zero, absorbBytes_nil]
    · next h56 =>
      have hne : s.fill.toNat ≠ 56 := fun h => h56 (BitVec.eq_of_toNat_eq h)
      have hfill := absorbBytes_fill [0#8] s
      have hz : (120 - s.fill.toNat) % 64 = (120 - (s.absorbBytes [0#8]).fill.toNat) % 64 + 1 := by
        simp only [List.length_singleton] at hfill
        omega
      rw [ih _ (by omega), absorbBytes_absorbBytes (by simp; omega), hz, List.replicate_succ]
      rfl

/-- The padding with a length field of 8 bytes is one absorb of 0x80, the zeros and the field (R115). -/
theorem pad_eq_absorbBytes {lf : List Byte} (hl : lf.length = 8) (s : State) :
    s.pad lf = s.absorbBytes (paddingBytes s.fill.toNat lf) := by
  have hlt := fill_toNat_lt s
  have hfill := absorbBytes_fill [Config.padMarker] s
  have hz : (120 - (s.absorbBytes [Config.padMarker]).fill.toNat) % 64 = zeroBytes s.fill.toNat := by
    simp only [List.length_singleton] at hfill
    rw [zeroBytes]
    omega
  have hz64 : zeroBytes s.fill.toNat < 64 := Nat.mod_lt _ (by decide)
  rw [State.pad, padZeros_eq_absorbBytes 64 _ (by omega), hz, absorbBytes_absorbBytes (by simp; omega),
    absorbBytes_absorbBytes (by simp [hl]; omega)]
  rfl

theorem lengthField_length (s : State) : s.lengthField.length = 8 := rfl

/-- How many bytes the padding has (R115). -/
theorem paddingBytes_length (j : Nat) {lf : List Byte} (hl : lf.length = 8) :
    (paddingBytes j lf).length = 9 + zeroBytes j := by
  simp [paddingBytes, hl]
  omega

/-- The padding ends on a block boundary (R115). -/
theorem pad_fill {lf : List Byte} (hl : lf.length = 8) (s : State) : (s.pad lf).fill = 0#6 := by
  have hlt := fill_toNat_lt s
  apply BitVec.eq_of_toNat_eq
  rw [pad_eq_absorbBytes hl, absorbBytes_fill, paddingBytes_length _ hl, zeroBytes]
  simp
  omega

end Sys2Proof.Machine
end

