-- ==== Sys2Proof/Proofs/Commands.lean ====
section
/-! PROOF. What each command and each kind of step answers, one equation per case: the layer the facts about every command
and every step are read off (43_streaming_buffer.md R107, R109; 44_finalizer.md R118, R120; 60_exceptions.md R125). -/

namespace Sys2Proof.Machine

/-! ## The commands -/

theorem exec_reset (s : State) : exec .reset s = .next (s.initialise.respond .ok) := rfl

theorem exec_absorb {s : State} (len : Word) (data : List Byte) (hp : s.phase ≠ .finalized) :
    exec (.absorb len data) s = .next ((s.absorbFrame len data).respond .ok) :=
  if_neg hp

theorem exec_finalize {s : State} (hp : s.phase ≠ .finalized) :
    exec .finalize s = .next (s.finalizeFrame.respond .ok) :=
  if_neg hp

theorem exec_getDigest {s : State} (hp : s.phase = .finalized) :
    exec .getDigest s = .next ((s.respond .ok).outBytes s.digest.toList) :=
  if_pos hp

/-- A frame with an error condition reports its code and does nothing else (R124, R125). -/
theorem exec_of_codeOf_ne_ok {i : Instr} {s : State} (hc : codeOf i s.phase ≠ .ok) :
    exec i s = .next (s.raiseMisuse (codeOf i s.phase)) := by
  cases i with
  | reset => exact absurd rfl hc
  | absorb len data =>
    cases hp : s.phase with
    | finalized => exact if_pos hp
    | _ => simp [codeOf, hp] at hc
  | finalize =>
    cases hp : s.phase with
    | finalized => exact if_pos hp
    | _ => simp [codeOf, hp] at hc
  | getDigest =>
    cases hp : s.phase with
    | finalized => simp [codeOf, hp] at hc
    | _ => exact if_neg (by simp [hp])
  | illegal op => exact execIllegal_eq op s

/-- Every command in every phase is one of the four that complete, or has an error condition (R125). -/
theorem command_cases (i : Instr) (p : Phase) :
    i = .reset
    ∨ (∃ len data, i = .absorb len data ∧ p ≠ .finalized)
    ∨ (i = .finalize ∧ p ≠ .finalized)
    ∨ (i = .getDigest ∧ p = .finalized)
    ∨ codeOf i p ≠ .ok := by
  cases i <;> cases p <;> simp [codeOf]

/-! ## The step (30_encoding.md R57, 70_reset_and_hazards.md R141) -/

theorem step_of_hardResetLine {s : State} (hl : s.hardResetLine = true) : step s = .next s.hardReset :=
  if_pos hl

theorem step_of_complete {s : State} {i : Instr} {rest : List Byte} (hl : s.hardResetLine = false)
    (hf : s.fetch = .complete i rest) : step s = exec i (s.consumed rest) := by
  simp [step, hl, hf]

theorem step_of_incomplete {s : State} {d : Dec} (hl : s.hardResetLine = false) (hf : s.fetch = .incomplete d) :
    step s = s.awaitBytes d := by
  simp [step, hl, hf]

end Sys2Proof.Machine
end

