-- ==== Sys2Proof/Proofs/Invariant.lean ====
section
/-! PROOF. The invariant between frames (10_state.md R27, 43_streaming_buffer.md R106): it holds after a reset, and every
step keeps it. -/

namespace Sys2Proof.Machine

/-- A state with the values of a reset meets the invariant (R28). -/
theorem inv_of_reset_values {s : State} (hd : s.dec.wellFormed = true) (hh : s.h = initialChain) (hhi : s.countHi = 0#32)
    (hlo : s.countLo = 0#32) (hdig : s.digest = Vector.replicate 20 0#8) (hp : s.phase = .idle) : s.Inv := by
  refine ⟨hd, by simp [hlo], fun _ => ⟨?_, hh, hdig⟩, fun hf => ?_⟩
  · rw [State.count, hhi, hlo]; rfl
  · simp [hp] at hf

/-- Responses are no part of the invariant. -/
theorem respond_inv {s : State} (c : Code) (h : s.Inv) : (s.respond c).Inv := h

theorem raiseMisuse_inv {s : State} (c : Code) (h : s.Inv) : (s.raiseMisuse c).Inv := h

theorem outBytes_inv {s : State} (bs : List Byte) (h : s.Inv) : (s.outBytes bs).Inv := h

/-- Consuming bytes moves DEC and nothing else that the invariant speaks of. -/
theorem consumed_inv {s : State} (rest : List Byte) (h : s.Inv) : (s.consumed rest).Inv :=
  ⟨rfl, h.2⟩

theorem waiting_inv {s : State} {d : Dec} (hd : d.wellFormed = true) (h : s.Inv) : (s.waiting d).Inv :=
  ⟨hd, h.2⟩

theorem hardReset_inv (s : State) : s.hardReset.Inv :=
  inv_of_reset_values rfl rfl rfl rfl rfl rfl

theorem initialise_inv {s : State} (h : s.Inv) : s.initialise.Inv := by
  obtain ⟨hd, -⟩ := h
  exact inv_of_reset_values hd rfl rfl rfl rfl rfl

/-- An ABSORB as a frame gives it leaves IDLE with its first byte, so the values of IDLE need no keeping (R22, R109). -/
theorem absorbFrame_inv {s : State} {len : Word} {data : List Byte} (hw : (Instr.absorb len data).wellFormed = true)
    (h : s.Inv) : (s.absorbFrame len data).Inv := by
  obtain ⟨hd, hlow, hidle, hfin⟩ := h
  by_cases hlen : len = 0#32
  · obtain rfl : data = [] := by simpa [Instr.wellFormed, hlen] using hw
    have he : s.absorbFrame len [] = s := by simp [State.absorbFrame, hlen]
    rw [he]
    exact ⟨hd, hlow, hidle, hfin⟩
  · refine ⟨by simpa using hd, ?_, by simp [hlen], by simp [hlen]⟩
    rw [absorbFrame_countLo, absorbBytes_countLo, counterAdd_low, hlow]

/-- FINALIZE leaves FILL = 0 and DIGEST the serialised H (R115, R116). -/
theorem finalizeFrame_inv {s : State} (h : s.Inv) : s.finalizeFrame.Inv := by
  obtain ⟨hd, hlow, -, -⟩ := h
  have hfill : s.finalizeFrame.fill = 0#6 := by
    rw [State.fill, finalizeFrame_countLo]
    exact pad_fill (lengthField_length s) s
  refine ⟨by simpa using hd, ?_, by simp, fun _ => ⟨hfill, by simp⟩⟩
  rw [finalizeFrame_countLo, pad_eq_absorbBytes (lengthField_length s), absorbBytes_countLo, counterAdd_low, hlow]

/-- Every command that is the reading of a frame keeps the invariant. -/
theorem exec_inv {i : Instr} {s t : State} (hw : i.wellFormed = true) (h : s.Inv) (he : exec i s = .next t) : t.Inv := by
  rcases command_cases i s.phase with rfl | ⟨len, data, rfl, hp⟩ | ⟨rfl, hp⟩ | ⟨rfl, hp⟩ | hc
  · cases he
    exact respond_inv .ok (initialise_inv h)
  · cases (exec_absorb len data hp).symm.trans he
    exact respond_inv .ok (absorbFrame_inv hw h)
  · cases (exec_finalize hp).symm.trans he
    exact respond_inv .ok (finalizeFrame_inv h)
  · cases (exec_getDigest hp).symm.trans he
    exact outBytes_inv _ (respond_inv .ok h)
  · cases (exec_of_codeOf_ne_ok hc).symm.trans he
    exact raiseMisuse_inv _ h

/-- Settles O50, by the kinds of step: a hard reset gives reset values, a whole frame is a well-formed command, and a part of
a frame leaves DEC at a position of R26. -/
theorem stepKeepsTheInvariant : Obligations.StepKeepsTheInvariant := by
  intro s t h hs
  have hread := readFrame_wellFormed s.commandChannel h.1
  rcases step_cases hs with ⟨-, rfl⟩ | ⟨-, i, rest, hf, he⟩ | ⟨-, d, hf, -, rfl⟩
  · exact hardReset_inv s
  · rw [State.fetch] at hf
    rw [hf] at hread
    exact exec_inv hread (consumed_inv rest h) he
  · rw [State.fetch] at hf
    rw [hf] at hread
    exact waiting_inv hread h

/-- Settles O49: State.reset has the values of a reset. -/
theorem resetMeetsTheInvariant : Obligations.ResetMeetsTheInvariant :=
  inv_of_reset_values rfl rfl rfl rfl rfl rfl

end Sys2Proof.Machine
end

