-- ==== Sys2Proof/Proofs/Writers.lean ====
section
/-! PROOF. Which command writes which part of the state, and what the state holds of the byte stream (10_state.md R17, R19,
R21 to R23, R28). -/

namespace Sys2Proof.Machine

/-- RESET empties BUF by its counter (R20, R107). -/
@[simp] theorem initialise_fill (s : State) : s.initialise.fill = 0#6 := by
  rw [State.fill, initialise_countLo]
  decide

/-- Settles O48: the reset state and the effect of RESET are written out value by value. -/
theorem resetValues : Obligations.ResetValues := by
  refine ⟨⟨rfl, rfl, rfl, rfl, rfl, rfl, rfl, rfl, rfl, rfl⟩, fun s => ?_⟩
  have hstatus : statusByte .ok .idle = 0x00#8 := by decide
  refine ⟨_, exec_reset s, rfl, rfl, rfl, initialise_fill s, rfl, rfl, rfl, rfl, rfl, ?_⟩
  rw [respond_responseChannel, initialise_responseChannel, initialise_phase, hstatus]

/-! ## PHASE -/

/-- Settles O42, command by command, each with its misuse. -/
theorem phaseWriters : Obligations.PhaseWriters := by
  intro s i
  cases i with
  | reset => exact ⟨_, exec_reset s, rfl⟩
  | absorb len data =>
    rcases execAbsorb_cases len data s with ⟨hp, e⟩ | ⟨hp, e⟩
    · exact ⟨_, e, by simp [hp]⟩
    · refine ⟨_, e, ?_⟩
      rw [respond_phase, absorbFrame_phase]
      cases hs : s.phase with
      | idle => by_cases hlen : len = 0#32 <;> simp [hlen]
      | absorbing => simp
      | finalized => exact absurd hs hp
  | finalize =>
    rcases execFinalize_cases s with ⟨hp, e⟩ | ⟨-, e⟩
    · exact ⟨_, e, by simp [hp]⟩
    · exact ⟨_, e, by simp⟩
  | getDigest => rcases execGetDigest_cases s with ⟨-, e⟩ | ⟨-, e⟩ <;> exact ⟨_, e, rfl⟩
  | illegal op => exact ⟨_, execIllegal_eq op s, rfl⟩

/-! ## DIGEST -/

/-- Settles O41: of the commands that complete, only RESET and FINALIZE outside FINALIZED write DIGEST. -/
theorem digestIsImmutable : Obligations.DigestIsImmutable := by
  intro s i hr hf
  rcases command_cases i s.phase with rfl | ⟨len, data, rfl, hp⟩ | ⟨rfl, hp⟩ | ⟨rfl, hp⟩ | hc
  · exact absurd rfl hr
  · exact ⟨_, exec_absorb len data hp, by simp⟩
  · exact absurd (hf rfl) hp
  · exact ⟨_, exec_getDigest hp, rfl⟩
  · exact ⟨_, exec_of_codeOf_ne_ok hc, rfl⟩

/-! ## H -/

/-- An absorb that completes no block leaves H alone (R98). -/
theorem absorbBytes_h_of_no_transform {data : List Byte} {s : State}
    (h : (s.absorbBytes data).transformsRun = s.transformsRun) : (s.absorbBytes data).h = s.h := by
  rw [absorbBytes_transformsRun_eq] at h
  rw [absorbBytes_h_eq_hashStream, hashStream_of_short]
  rw [List.length_append, pending_length]
  omega

/-- Settles O40: of the commands that complete, ABSORB and FINALIZE write H, both by one absorb. -/
theorem onlyResetAndTransformWriteH : Obligations.OnlyResetAndTransformWriteH := by
  intro s i hr
  rcases command_cases i s.phase with rfl | ⟨len, data, rfl, hp⟩ | ⟨rfl, hp⟩ | ⟨rfl, hp⟩ | hc
  · exact absurd rfl hr
  · refine ⟨_, exec_absorb len data hp, ?_⟩
    rw [respond_transformsRun, respond_h, absorbFrame_transformsRun, absorbFrame_h]
    exact absorbBytes_h_of_no_transform
  · refine ⟨_, exec_finalize hp, ?_⟩
    rw [respond_transformsRun, respond_h, finalizeFrame_transformsRun, finalizeFrame_h,
      pad_eq_absorbBytes (lengthField_length s)]
    exact absorbBytes_h_of_no_transform
  · exact ⟨_, exec_getDigest hp, fun _ => rfl⟩
  · exact ⟨_, exec_of_codeOf_ne_ok hc, fun _ => rfl⟩

/-! ## The byte stream -/

/-- An absorb extends the stream that a state holds (R102). -/
theorem absorbBytes_holds {s : State} {stream data : List Byte} (hl : data.length < 2 ^ 32) (h : s.Holds stream) :
    (s.absorbBytes data).Holds (stream ++ data) := by
  obtain ⟨hh, hp, hc⟩ := h
  refine ⟨?_, ?_, ?_⟩
  · rw [absorbBytes_h_eq_hashStream, hh, hp, ← hashStream_append]
  · rw [absorbBytes_pending, hp, ← streamTail_append]
  · rw [absorbBytes_count, hc, Nat.mod_eq_of_lt hl, bitLength_append]

/-- Settles O26: the frame around the absorb keeps H, BUF[0..FILL-1] and COUNT. -/
theorem absorbExtendsTheStream : Obligations.AbsorbExtendsTheStream := by
  intro s stream len data h hp hl
  obtain ⟨hh, hpend, hc⟩ := absorbBytes_holds (data := data) (hl ▸ len.isLt) h
  refine ⟨_, exec_absorb len data hp, ?_, ?_, ?_⟩
  · rw [respond_h, absorbFrame_h, hh]
  · rw [respond_pending, absorbFrame_pending, hpend]
  · rw [respond_count, absorbFrame_count, hc]

end Sys2Proof.Machine
end

