-- ==== Sys2Proof/Proofs/HiddenState.lean ====
section
/-! PROOF. What a host cannot tell apart stays so (10_state.md R16, R29; 44_finalizer.md R117): each operation of the step
takes indistinguishable states to indistinguishable states. -/

namespace Sys2Proof.Machine

/-! ## Equal streams: what `SameForHost` asks before FINALIZE -/

/-- Equal H, COUNT and BUF[0..FILL-1]. -/
abbrev SameStream (s u : State) : Prop :=
  s.h = u.h ∧ s.countHi = u.countHi ∧ s.countLo = u.countLo ∧ s.pending = u.pending

/-- An absorb reads no more of the state than its stream. -/
theorem absorbBytes_sameStream {s u : State} (data : List Byte) (h : SameStream s u) :
    SameStream (s.absorbBytes data) (u.absorbBytes data) := by
  obtain ⟨hh, hhi, hlo, hp⟩ := h
  refine ⟨?_, ?_, ?_, ?_⟩
  · rw [absorbBytes_h_eq_hashStream, absorbBytes_h_eq_hashStream, hh, hp]
  · rw [absorbBytes_countHi, absorbBytes_countHi, hhi, hlo]
  · rw [absorbBytes_countLo, absorbBytes_countLo, hhi, hlo]
  · rw [absorbBytes_pending, absorbBytes_pending, hp]

/-- The padding and its length field read no more of the state than its stream. -/
theorem pad_lengthField_sameStream {s u : State} (h : SameStream s u) :
    SameStream (s.pad s.lengthField) (u.pad u.lengthField) := by
  have ⟨_, hhi, hlo, _⟩ := h
  have hlf : s.lengthField = u.lengthField := by rw [State.lengthField, State.lengthField, hhi, hlo]
  have hfill : s.fill = u.fill := by rw [State.fill, State.fill, hlo]
  rw [pad_eq_absorbBytes (lengthField_length s), pad_eq_absorbBytes (lengthField_length u), hlf, hfill]
  exact absorbBytes_sameStream _ h

/-! ## The operations -/

section
variable {s u : State} (h : SameForHost s u)
include h

theorem respond_sameForHost (c : Code) : SameForHost (s.respond c) (u.respond c) := by
  obtain ⟨hcmd, hresp, hdec, hline, hphase, hdig, hstream⟩ := h
  exact ⟨hcmd, by simp [hresp, hphase], hdec, hline, hphase, hdig, hstream⟩

theorem raiseMisuse_sameForHost (c : Code) : SameForHost (s.raiseMisuse c) (u.raiseMisuse c) :=
  respond_sameForHost h c

theorem outBytes_sameForHost (bs : List Byte) : SameForHost (s.outBytes bs) (u.outBytes bs) := by
  obtain ⟨hcmd, hresp, hdec, hline, hphase, hdig, hstream⟩ := h
  exact ⟨hcmd, by simp [hresp], hdec, hline, hphase, hdig, hstream⟩

theorem consumed_sameForHost (rest : List Byte) : SameForHost (s.consumed rest) (u.consumed rest) := by
  obtain ⟨-, hresp, -, hline, hphase, hdig, hstream⟩ := h
  exact ⟨rfl, hresp, rfl, hline, hphase, hdig, hstream⟩

theorem waiting_sameForHost (d : Dec) : SameForHost (s.waiting d) (u.waiting d) := by
  obtain ⟨-, hresp, -, hline, hphase, hdig, hstream⟩ := h
  exact ⟨rfl, hresp, rfl, hline, hphase, hdig, hstream⟩

theorem initialise_sameForHost : SameForHost s.initialise u.initialise := by
  obtain ⟨hcmd, hresp, hdec, hline, -⟩ := h
  exact ⟨hcmd, hresp, hdec, hline, rfl, fun _ => rfl, fun _ => ⟨rfl, rfl, rfl, rfl⟩⟩

theorem absorbFrame_sameForHost (len : Word) (data : List Byte) (hp : s.phase ≠ .finalized) :
    SameForHost (s.absorbFrame len data) (u.absorbFrame len data) := by
  obtain ⟨hcmd, hresp, hdec, hline, hphase, -, hstream⟩ := h
  obtain ⟨hh, hhi, hlo, hpend⟩ := absorbBytes_sameStream data (hstream hp)
  have hnf : (s.absorbFrame len data).phase ≠ .finalized := by
    rw [absorbFrame_phase]; split <;> simp [hp]
  refine ⟨by simpa using hcmd, by simpa using hresp, by simpa using hdec, by simpa using hline, by simp [hphase],
    fun hf => absurd hf hnf, fun _ => ⟨?_, ?_, ?_, ?_⟩⟩
  · rw [absorbFrame_h, absorbFrame_h, hh]
  · rw [absorbFrame_countHi, absorbFrame_countHi, hhi]
  · rw [absorbFrame_countLo, absorbFrame_countLo, hlo]
  · rw [absorbFrame_pending, absorbFrame_pending, hpend]

theorem finalizeFrame_sameForHost (hp : s.phase ≠ .finalized) :
    SameForHost s.finalizeFrame u.finalizeFrame := by
  obtain ⟨hcmd, hresp, hdec, hline, -, -, hstream⟩ := h
  obtain ⟨hh, -⟩ := pad_lengthField_sameStream (hstream hp)
  refine ⟨by simpa using hcmd, by simpa using hresp, by simpa using hdec, by simpa using hline, by simp,
    fun _ => ?_, fun hf => absurd (finalizeFrame_phase s) hf⟩
  rw [finalizeFrame_digest, finalizeFrame_digest, hh]

/-! ## The commands and the step -/

/-- Every command answers indistinguishable states alike. -/
theorem exec_sameOutcome (i : Instr) : SameOutcome (exec i s) (exec i u) := by
  have ⟨_, _, _, _, hphase, hdig, _⟩ := h
  rcases command_cases i s.phase with rfl | ⟨len, data, rfl, hp⟩ | ⟨rfl, hp⟩ | ⟨rfl, hp⟩ | hc
  · exact respond_sameForHost (initialise_sameForHost h) .ok
  · rw [exec_absorb len data hp, exec_absorb len data (hphase ▸ hp)]
    exact respond_sameForHost (absorbFrame_sameForHost h len data hp) .ok
  · rw [exec_finalize hp, exec_finalize (hphase ▸ hp)]
    exact respond_sameForHost (finalizeFrame_sameForHost h hp) .ok
  · rw [exec_getDigest hp, exec_getDigest (hphase ▸ hp), hdig hp]
    exact outBytes_sameForHost (respond_sameForHost h .ok) u.digest.toList
  · rw [exec_of_codeOf_ne_ok hc, exec_of_codeOf_ne_ok (hphase ▸ hc), hphase]
    exact raiseMisuse_sameForHost h (codeOf i u.phase)

/-- Waiting for bytes answers indistinguishable states alike, the stop included. -/
theorem awaitBytes_sameOutcome (d : Dec) : SameOutcome (s.awaitBytes d) (u.awaitBytes d) := by
  have ⟨hcmd, _⟩ := h
  by_cases hnil : s.commandChannel = []
  · rw [awaitBytes_of_nil hnil, awaitBytes_of_nil (hcmd ▸ hnil)]
    exact rfl
  · rw [awaitBytes_of_ne_nil hnil, awaitBytes_of_ne_nil (hcmd ▸ hnil)]
    exact waiting_sameForHost h d

end

/-- A hard reset leaves nothing that differs (R141). -/
theorem hardReset_sameForHost (s u : State) : SameForHost s.hardReset u.hardReset :=
  ⟨rfl, rfl, rfl, rfl, rfl, fun _ => rfl, fun _ => ⟨rfl, rfl, rfl, rfl⟩⟩

/-- Settles O55: equal reset lines, decoders and command channels make both states take the same kind of step, and each kind
answers them alike. -/
theorem hiddenStateIsUnobservable : Obligations.HiddenStateIsUnobservable := by
  intro s u h
  have ⟨hcmd, _, hdec, hline, _⟩ := h
  cases hl : s.hardResetLine with
  | true =>
    rw [step_of_hardResetLine hl, step_of_hardResetLine (hline ▸ hl)]
    exact hardReset_sameForHost s u
  | false =>
    have hfetch : u.fetch = s.fetch := by rw [State.fetch, State.fetch, hcmd, hdec]
    cases hf : s.fetch with
    | complete i rest =>
      rw [step_of_complete hl hf, step_of_complete (hline ▸ hl) (hfetch.trans hf)]
      exact exec_sameOutcome (consumed_sameForHost h rest) i
    | incomplete d =>
      rw [step_of_incomplete hl hf, step_of_incomplete (hline ▸ hl) (hfetch.trans hf)]
      exact awaitBytes_sameOutcome h d

end Sys2Proof.Machine
end

