-- ==== Sys2Proof/Proofs/BigEndian.lean ====
section
/-! PROOF. The byte order of the serialisations (20_memory.md R33 to R35; 40_word_codec.md R65, R66, R68): the length field
and the digest are each a list of words stored one after the other. -/

namespace Sys2Proof.Machine

/-- A stored word's byte k holds its bits 31-8k to 24-8k (R33, R65). -/
theorem be32Store_getD {k : Nat} (hk : k < 4) (w : Word) :
    (be32Store w).getD k 0#8 = w.extractLsb' (24 - 8 * k) 8 := by
  interval_cases k <;> rfl

/-- Of words stored one after the other, byte 4i+k is byte k of word i. -/
theorem flatMap_be32Store_getD {k : Nat} (hk : k < 4) : ∀ {ws : List Word} {i : Nat}, i < ws.length →
    (ws.flatMap be32Store).getD (4 * i + k) 0#8 = (ws.getD i 0#32).extractLsb' (24 - 8 * k) 8
  | w :: ws, 0, _ => by
    have hlen : 4 * 0 + k < (be32Store w).length := by simpa [be32Store] using hk
    rw [List.flatMap_cons, List.getD_append _ _ _ _ hlen, List.getD_cons_zero, Nat.mul_zero, Nat.zero_add]
    exact be32Store_getD hk w
  | w :: ws, i + 1, hi => by
    have hlen : (be32Store w).length = 4 := rfl
    rw [List.flatMap_cons, List.getD_append_right _ _ _ _ (by omega), hlen, List.getD_cons_succ,
      show 4 * (i + 1) + k - 4 = 4 * i + k by omega]
    exact flatMap_be32Store_getD hk (by simpa using hi)

theorem len64Store_eq_flatMap (hi lo : Word) : len64Store hi lo = [hi, lo].flatMap be32Store := rfl

theorem digestList_eq_flatMap (h : Chain) : digestList h = [h.h0, h.h1, h.h2, h.h3, h.h4].flatMap be32Store := rfl

/-- R12's H[i] is entry i of the five words. -/
theorem word_eq_getD (h : Chain) {i : Nat} (hi : i < 5) : h.word i = [h.h0, h.h1, h.h2, h.h3, h.h4].getD i 0#32 := by
  interval_cases i <;> rfl

/-- The digest register is the digest's bytes in order (R68). -/
theorem digestBytes_toList (h : Chain) : (digestBytes h).toList = digestList h := by
  rw [digestBytes, Vector.toList_ofFn]
  exact List.ext_getElem (by simp [digestList, be32Store]) fun n _ hn => by
    rw [List.getElem_ofFn, List.getD_eq_getElem _ _ hn]

/-- The length field, byte by byte (R34): the high word of the counter first. -/
theorem len64Store_getD (hi lo : Word) {k : Nat} (hk : k < 8) :
    (len64Store hi lo).getD k 0#8 = (hi ++ lo : BitVec 64).extractLsb' (56 - 8 * k) 8 := by
  rw [len64Store_eq_flatMap]
  by_cases hhigh : k < 4
  · calc ([hi, lo].flatMap be32Store).getD k 0#8
        = ([hi, lo].flatMap be32Store).getD (4 * 0 + k) 0#8 := by rw [Nat.mul_zero, Nat.zero_add]
      _ = hi.extractLsb' (24 - 8 * k) 8 := flatMap_be32Store_getD hhigh (by simp)
      _ = hi.extractLsb' (56 - 8 * k - 32) 8 := by rw [show 56 - 8 * k - 32 = 24 - 8 * k by omega]
      _ = (hi ++ lo : BitVec 64).extractLsb' (56 - 8 * k) 8 :=
        (BitVec.extractLsb'_append_eq_of_le (by omega)).symm
  · calc ([hi, lo].flatMap be32Store).getD k 0#8
        = ([hi, lo].flatMap be32Store).getD (4 * 1 + (k - 4)) 0#8 := by rw [show 4 * 1 + (k - 4) = k by omega]
      _ = lo.extractLsb' (24 - 8 * (k - 4)) 8 := flatMap_be32Store_getD (by omega) (by simp)
      _ = lo.extractLsb' (56 - 8 * k) 8 := by rw [show 24 - 8 * (k - 4) = 56 - 8 * k by omega]
      _ = (hi ++ lo : BitVec 64).extractLsb' (56 - 8 * k) 8 :=
        (BitVec.extractLsb'_append_eq_of_add_le (by omega)).symm

/-- The digest, byte by byte (R35). -/
theorem digestBytes_getD (h : Chain) {i k : Nat} (hi : i < 5) (hk : k < 4) :
    (digestBytes h).toList.getD (4 * i + k) 0#8 = (h.word i).extractLsb' (24 - 8 * k) 8 := by
  rw [digestBytes_toList, digestList_eq_flatMap, word_eq_getD h hi]
  exact flatMap_be32Store_getD hk hi

/-- Settles O8, by the bytes of a list of stored words. -/
theorem serialisationIsBigEndian : Obligations.SerialisationIsBigEndian :=
  ⟨fun hi lo _ hk => len64Store_getD hi lo hk, fun h _ _ hi hk => digestBytes_getD h hi hk⟩

end Sys2Proof.Machine
end

