-- ==== Sys2Proof/Proofs/Channels.lean ====
section
/-! PROOF. The two channels (20_memory.md R32, R42): responses are only appended, command bytes are consumed from the front,
and whole frames are executed one step each, in order (30_encoding.md R57; 70_reset_and_hazards.md R152, R155). -/

namespace Sys2Proof

/-! ## A frame on the command channel (R47, R48, R57) -/

/-- After the opcode of ABSORB and the four LEN bytes: a whole frame if LEN = 0, else a position before the DATA (R48). -/
theorem readFrame_absorb_header (b1 b2 b3 b4 : Byte) (bs : List Byte) :
    readFrame .waitOp (0x02#8 :: b1 :: b2 :: b3 :: b4 :: bs)
      = if lenField b1 b2 b3 b4 = 0#32 then .complete (.absorb (lenField b1 b2 b3 b4) []) bs
        else readFrame (.waitData (lenField b1 b2 b3 b4) []) bs := by
  simp only [readFrame, feed, feedOp, feedLen]
  by_cases hz : lenField b1 b2 b3 b4 = 0#32 <;> simp [hz]

/-- The decoder reads a well-formed command back from its frame, whatever bytes follow (R47 to R52). -/
theorem readFrame_encode_append {i : Instr} (hw : i.wellFormed = true) (rest : List Byte) :
    readFrame .waitOp (encode i ++ rest) = .complete i rest := by
  cases i with
  | reset => rfl
  | absorb len data =>
    have hlen : data.length = len.toNat := by simpa [Instr.wellFormed] using hw
    simp only [encode, List.cons_append, List.nil_append]
    rw [readFrame_absorb_header, lenField_of_bytes]
    by_cases hz : len = 0#32
    · subst hz
      rw [if_pos rfl, List.eq_nil_of_length_eq_zero hlen, List.nil_append]
    · have hne : data ≠ [] := by
        rintro rfl
        exact hz (BitVec.eq_of_toNat_eq hlen.symm)
      rw [if_neg hz, readFrame_waitData len data [] rest hne (by simpa using hlen), List.nil_append]
  | finalize => rfl
  | getDigest => rfl
  | illegal op =>
    have hf : feed .waitOp op = .frame (.illegal op) := by
      simp_all [feed, feedOp, Instr.wellFormed, commandOpcode]
    exact readFrame_cons_frame rest hf

end Sys2Proof

namespace Sys2Proof.Machine

/-- The next command of a block at a frame boundary is the one whose frame stands in front. -/
theorem fetch_of_frame {s : State} {i : Instr} {rest : List Byte} (hd : s.dec = .waitOp) (hw : i.wellFormed = true)
    (hc : s.commandChannel = encode i ++ rest) : s.fetch = .complete i rest := by
  rw [State.fetch, hd, hc, readFrame_encode_append hw]

/-! ## Every command answers a next state, and one response (R53, R55) -/

/-- No command stops the block (R123). -/
theorem exec_next (i : Instr) (s : State) : ∃ t, exec i s = .next t := by
  rcases command_cases i s.phase with rfl | ⟨len, data, rfl, hp⟩ | ⟨rfl, hp⟩ | ⟨rfl, hp⟩ | hc
  · exact ⟨_, exec_reset s⟩
  · exact ⟨_, exec_absorb len data hp⟩
  · exact ⟨_, exec_finalize hp⟩
  · exact ⟨_, exec_getDigest hp⟩
  · exact ⟨_, exec_of_codeOf_ne_ok hc⟩

/-- A command appends its status byte to the response channel, and what else it answers after that. -/
theorem exec_responseChannel {i : Instr} {s t : State} (h : exec i s = .next t) :
    ∃ more, t.responseChannel = s.responseChannel ++ statusByte (codeOf i s.phase) t.phase :: more := by
  rcases command_cases i s.phase with rfl | ⟨len, data, rfl, hp⟩ | ⟨rfl, hp⟩ | ⟨rfl, hp⟩ | hc
  · cases (exec_reset s).symm.trans h
    exact ⟨[], by simp [codeOf]⟩
  · cases (exec_absorb len data hp).symm.trans h
    exact ⟨[], by simp [codeOf]⟩
  · cases (exec_finalize hp).symm.trans h
    exact ⟨[], by simp [codeOf]⟩
  · cases (exec_getDigest hp).symm.trans h
    exact ⟨s.digest.toList, by simp [codeOf, hp]⟩
  · cases (exec_of_codeOf_ne_ok hc).symm.trans h
    exact ⟨[], rfl⟩

/-- Settles O53: a whole frame's bytes leave the front and its response is appended; an unfinished frame's bytes all leave, with
no response. -/
theorem channelsAreInOrder : Obligations.ChannelsAreInOrder := by
  intro s t hl h
  rcases step_cases h with ⟨hr, -⟩ | ⟨-, i, rest, hf, he⟩ | ⟨-, d, -, hc, rfl⟩
  · simp [hl] at hr
  · obtain ⟨more, hresp⟩ := exec_responseChannel he
    obtain ⟨-, hcmd, -⟩ := exec_channels he
    obtain ⟨used, hne, hused⟩ := readFrame_complete_suffix s.commandChannel hf
    exact ⟨⟨_, hresp⟩, used, hne, by rw [hused, hcmd, consumed_commandChannel]⟩
  · exact ⟨⟨[], by simp⟩, s.commandChannel, hc, by simp⟩

/-! ## No command reads the command channel (R31, R42) -/

section
variable (rest : List Byte) (s : State)

theorem respond_consumed (c : Code) : (s.consumed rest).respond c = (s.respond c).consumed rest := rfl

theorem leaveUnspecified_consumed (r : Nat) :
    (s.consumed rest).leaveUnspecified r = (s.leaveUnspecified r).consumed rest := rfl

theorem absorbBytes_consumed (data : List Byte) :
    (s.consumed rest).absorbBytes data = (s.absorbBytes data).consumed rest := rfl

theorem produceDigest_consumed : (s.consumed rest).produceDigest = s.produceDigest.consumed rest := rfl

theorem absorbFrame_consumed (len : Word) (data : List Byte) :
    (s.consumed rest).absorbFrame len data = (s.absorbFrame len data).consumed rest := by
  simp only [State.absorbFrame, absorbBytes_consumed, leaveUnspecified_consumed, consumed_transformsRun]
  split <;> rfl

theorem pad_consumed {lf : List Byte} (hl : lf.length = 8) : (s.consumed rest).pad lf = (s.pad lf).consumed rest := by
  rw [pad_eq_absorbBytes hl, pad_eq_absorbBytes hl, consumed_fill, absorbBytes_consumed]

theorem finalizeFrame_consumed : (s.consumed rest).finalizeFrame = s.finalizeFrame.consumed rest := by
  have hlf : (s.consumed rest).lengthField = s.lengthField := rfl
  rw [State.finalizeFrame, hlf, pad_consumed rest s (lengthField_length s), produceDigest_consumed, consumed_transformsRun,
    leaveUnspecified_consumed, State.finalizeFrame]

end

/-- With other bytes waiting a command does the same. -/
theorem exec_consumed {i : Instr} {s t : State} (h : exec i s = .next t) (rest : List Byte) :
    exec i (s.consumed rest) = .next (t.consumed rest) := by
  rcases command_cases i s.phase with rfl | ⟨len, data, rfl, hp⟩ | ⟨rfl, hp⟩ | ⟨rfl, hp⟩ | hc
  · cases (exec_reset s).symm.trans h
    rfl
  · cases (exec_absorb len data hp).symm.trans h
    rw [exec_absorb len data (s := s.consumed rest) hp, absorbFrame_consumed, respond_consumed]
  · cases (exec_finalize hp).symm.trans h
    rw [exec_finalize (s := s.consumed rest) hp, finalizeFrame_consumed, respond_consumed]
  · cases (exec_getDigest hp).symm.trans h
    exact exec_getDigest (s := s.consumed rest) hp
  · cases (exec_of_codeOf_ne_ok hc).symm.trans h
    exact exec_of_codeOf_ne_ok (s := s.consumed rest) hc

/-! ## Runs over whole frames (R57, R155) -/

theorem run_succ_of_step {s t : State} (h : step s = .next t) (k : Nat) :
    Host.Core.run core (k + 1) s = Host.Core.run core k t := by
  simp [Host.Core.run, show core.step s = .next t from h]

theorem execAll_cons_of_exec {i : Instr} {s t : State} (h : exec i s = .next t) (is : List Instr) :
    execAll (i :: is) s = execAll is t := by
  rw [execAll, h]

/-- At a frame boundary, consuming a frame of no bytes changes nothing. -/
theorem consumed_commandChannel_self {s : State} (hd : s.dec = .waitOp) : s.consumed s.commandChannel = s := by
  rw [State.consumed, ← hd]

/-- A run over whole frames from a frame boundary ends where the commands, executed in order, end, with every byte read. -/
theorem run_of_frames : ∀ (frames : List Instr) (s : State),
    s.hardResetLine = false → s.dec = .waitOp → (∀ i ∈ frames, i.wellFormed = true) →
    s.commandChannel = frames.flatMap encode →
      ∃ t, Host.Core.run core frames.length s = .next t ∧ execAll frames (s.consumed []) = .next t ∧ t.Final
  | [], s, _, hd, _, hc => by
    have hnil : s.commandChannel = [] := hc
    have hs : s.consumed [] = s := hnil ▸ consumed_commandChannel_self hd
    exact ⟨s, rfl, by rw [hs]; rfl, hnil, hd⟩
  | i :: is, s, hl, hd, hw, hc => by
    obtain ⟨hwi, hwis⟩ := List.forall_mem_cons.mp hw
    obtain ⟨u, he⟩ := exec_next i (s.consumed (is.flatMap encode))
    have hstep : step s = .next u :=
      (step_of_complete hl (fetch_of_frame hd hwi (hc.trans List.flatMap_cons))).trans he
    have hexec : exec i (s.consumed []) = .next (u.consumed []) := exec_consumed he []
    obtain ⟨hud, huc, hul, -⟩ := exec_channels he
    obtain ⟨t, hrun, hall, hfinal⟩ := run_of_frames is u (hul.trans hl) hud hwis huc
    exact ⟨t, (run_succ_of_step hstep is.length).trans hrun, (execAll_cons_of_exec hexec is).trans hall, hfinal⟩

/-- Settles O54: at a frame boundary, emptying the command channel is `State.consumed []`. -/
theorem runOfWholeFrames : Obligations.RunOfWholeFrames := by
  intro s frames hl hd hw hc
  have hs : { s with commandChannel := [] } = s.consumed [] := by rw [State.consumed, ← hd]
  rw [hs]
  exact run_of_frames frames s hl hd hw hc

end Sys2Proof.Machine
end

