-- ==== Sys2Proof/Proofs/Decoder.lean ====
section
/-! PROOF. Decoder and encoder undo each other (30_encoding.md R47 to R52, R57): DEC stands for exactly the bytes of the frame
that have been read. -/

namespace Sys2Proof

/-- Settles O2: it is `readFrame_encode_append`, from a frame boundary. -/
theorem decodeOfEncodeIsTheCommand : Obligations.DecodeOfEncodeIsTheCommand :=
  fun _ rest hw => readFrame_encode_append hw rest

/-! ## The LEN field as the encoder writes it (R48, R50) -/

/-- The encoder writes back the four bytes that a LEN was assembled from. -/
theorem encode_absorb_lenField (b1 b2 b3 b4 : Byte) (data : List Byte) :
    encode (.absorb (lenField b1 b2 b3 b4) data) = [0x02#8, b1, b2, b3, b4] ++ data := by
  have h1 := b1.isLt
  have h2 := b2.isLt
  have h3 := b3.isLt
  have h4 := b4.isLt
  simp only [encode, List.append_cancel_right_eq, List.cons.injEq, and_true, true_and]
  refine ⟨?_, ?_, ?_, ?_⟩
  all_goals
    apply BitVec.eq_of_toNat_eq
    rw [BitVec.extractLsb'_toNat, lenField_toNat, Nat.shiftRight_eq_div_pow]
    omega

/-! ## DEC stands for the bytes read (R26, R57) -/

/-- The bytes of the current frame that bring the decoder from a frame boundary to a position. -/
def Dec.bytesRead : Dec → List Byte
  | .waitOp => []
  | .waitLen acc => 0x02#8 :: acc
  | .waitData len got => encode (.absorb len got)

/-- More DATA only lengthens the frame at its end (R48). -/
theorem encode_absorb_append (len : Word) (got more : List Byte) :
    encode (.absorb len (got ++ more)) = encode (.absorb len got) ++ more := by
  simp [encode]

/-- The byte that completes the LEN field: the header is then the five bytes read. -/
theorem encode_absorb_lenOfBytes {acc : List Byte} {b : Byte} (h : acc.length = 3) :
    encode (.absorb (lenOfBytes (acc ++ [b])) []) = 0x02#8 :: acc ++ [b] := by
  obtain ⟨b1, b2, b3, rfl⟩ := List.length_eq_three.mp h
  exact encode_absorb_lenField b1 b2 b3 b []

/-- Every byte the decoder takes is kept: in the further position, or in the command of the frame it completes. -/
theorem feed_bytesRead {d : Dec} (b : Byte) (h : d.wellFormed = true) :
    match feed d b with
    | .more d' => d'.bytesRead = d.bytesRead ++ [b]
    | .frame i => encode i = d.bytesRead ++ [b] := by
  cases d with
  | waitOp =>
    simp only [feed, feedOp]
    split_ifs <;> simp_all [Dec.bytesRead, encode]
  | waitLen acc =>
    simp only [Dec.wellFormed, decide_eq_true_eq] at h
    simp only [feed, feedLen, List.length_append, List.length_singleton]
    split_ifs with hlen hzero
    · rfl
    · exact encode_absorb_lenOfBytes (by omega)
    · exact encode_absorb_lenOfBytes (by omega)
  | waitData len got =>
    simp only [feed, feedData]
    split_ifs
    · exact encode_absorb_append len got [b]
    · exact encode_absorb_append len got [b]

/-- The bytes of a whole frame, those read before included, are the encoding of its command. -/
theorem bytesRead_append_of_complete (bytes : List Byte) : ∀ {d : Dec} {i : Instr} {rest : List Byte},
    d.wellFormed = true → readFrame d bytes = .complete i rest → d.bytesRead ++ bytes = encode i ++ rest := by
  induction bytes with
  | nil => intro _ _ _ _ h; simp at h
  | cons b bs ih =>
    intro d i rest hd h
    have hread := feed_bytesRead b hd
    have hwf := feed_wellFormed b hd
    cases hf : feed d b with
    | more d' =>
      rw [hf] at hread hwf
      rw [readFrame_cons_more bs hf] at h
      rw [← ih hwf h, hread, List.append_assoc, List.singleton_append]
    | frame j =>
      rw [hf] at hread
      rw [readFrame_cons_frame bs hf] at h
      cases h
      rw [hread, List.append_assoc, List.singleton_append]

/-- Settles O3: from a frame boundary no byte is read before, and the decoder completes only well-formed commands. -/
theorem decodedFrameIsItsEncoding : Obligations.DecodedFrameIsItsEncoding := by
  intro bytes i rest h
  have hwf := readFrame_wellFormed (d := .waitOp) bytes rfl
  rw [show readFrame .waitOp bytes = _ from h] at hwf
  exact ⟨hwf, bytesRead_append_of_complete bytes (d := .waitOp) rfl h⟩

/-! ## The length of a frame (R49) -/

/-- A well-formed command's frame has the length that R49 reads from its first bytes. -/
theorem encode_length {i : Instr} (hw : i.wellFormed = true) : (encode i).length = frameLength (encode i) := by
  cases i with
  | reset => exact Laws.FrameBytes.reset hw
  | absorb len data => exact Laws.FrameBytes.absorb len data hw
  | finalize => exact Laws.FrameBytes.finalize hw
  | getDigest => exact Laws.FrameBytes.getDigest hw
  | illegal op => exact Laws.FrameBytes.illegal op hw

/-- A first byte other than 0x02 is a frame of its own (R49). -/
theorem frameLength_cons_of_ne {op : Byte} (bytes : List Byte) (h : op ≠ 0x02#8) : frameLength (op :: bytes) = 1 :=
  if_neg h

/-- The first byte 0x02 and a LEN field (R49). -/
theorem frameLength_absorb_header (b1 b2 b3 b4 : Byte) (bytes : List Byte) :
    frameLength ([0x02#8, b1, b2, b3, b4] ++ bytes) = 5 + (lenField b1 b2 b3 b4).toNat :=
  if_pos rfl

/-- R49 reads no byte after the frame. -/
theorem frameLength_encode_append {i : Instr} (rest : List Byte) (hw : i.wellFormed = true) :
    frameLength (encode i ++ rest) = frameLength (encode i) := by
  cases i with
  | absorb len data =>
    rw [encode, List.append_assoc, frameLength_absorb_header, frameLength_absorb_header]
  | illegal op =>
    have hop : op ≠ 0x02#8 := by
      rintro rfl
      exact absurd hw (by decide)
    exact (frameLength_cons_of_ne rest hop).trans (frameLength_cons_of_ne [] hop).symm
  | _ => exact (frameLength_cons_of_ne rest (by decide)).trans (frameLength_cons_of_ne [] (by decide)).symm

/-- Settles O4: the bytes are the command's encoding and the rest, so R49's length is the encoding's. -/
theorem frameLengthFromFirstBytes : Obligations.FrameLengthFromFirstBytes := by
  intro bytes i rest h
  obtain ⟨hw, rfl⟩ := decodedFrameIsItsEncoding bytes i rest h
  calc (encode i ++ rest).length
      = rest.length + (encode i).length := by rw [List.length_append, Nat.add_comm]
    _ = rest.length + frameLength (encode i ++ rest) := by rw [encode_length hw, frameLength_encode_append rest hw]

/-! ## DATA (R50, R58) -/

/-- Settles O5: the bytes are the encoding of that ABSORB followed by the others. -/
theorem everyDataByteIsData : Obligations.EveryDataByteIsData := by
  intro b1 b2 b3 b4 bytes len hlen
  have hvalue : (lenField b1 b2 b3 b4).toNat = len := lenField_toNat b1 b2 b3 b4
  have hfield : lenField b1 b2 b3 b4 = BitVec.ofNat 32 len := by rw [← hvalue, BitVec.ofNat_toNat, BitVec.setWidth_eq]
  have hw : (Instr.absorb (lenField b1 b2 b3 b4) (bytes.take len)).wellFormed = true := by
    simp [Instr.wellFormed, hvalue, hlen]
  have hd := decodeOfEncodeIsTheCommand _ (bytes.drop len) hw
  rwa [encode_absorb_lenField, List.append_assoc, List.take_append_drop, hfield] at hd

/-! ## Bytes in pieces (R57) -/

/-- Settles O6, by induction on the bytes that arrive first: each of them leaves the frame unfinished. -/
theorem decodingResumesAtDec : Obligations.DecodingResumesAtDec := by
  intro d d' first later
  induction first generalizing d with
  | nil => intro h; cases h; rfl
  | cons b bs ih =>
    intro h
    cases hf : feed d b with
    | more e =>
      rw [readFrame_cons_more bs hf] at h
      rw [List.cons_append, readFrame_cons_more (bs ++ later) hf]
      exact ih e h
    | frame i => simp [readFrame_cons_frame bs hf] at h

end Sys2Proof

namespace Sys2Proof.Machine

/-! ## The assembler's examples (R60, R62) -/

/-- `ABSORB.REP n, b` is the frame with LEN = n and n bytes b (R60). -/
theorem bytes_absorbRep (n : Nat) (b : Byte) :
    (Asm.absorbRep n b).bytes = encode (.absorb (BitVec.ofNat 32 n) (List.replicate n b)) := by
  rw [Asm.bytes, absorbOf, List.length_replicate]

/-- Settles O1, example by example. -/
theorem encodingExamples : Obligations.EncodingExamples := by
  refine ⟨rfl, rfl, rfl, ?_, rfl, rfl, rfl, decode_reset_bytes, decode_absorb_bytes, rfl, decode_finalize_bytes,
    decode_getDigest_bytes, decode_illegal_bytes⟩
  have hheader : encode (.absorb 1000#32 (List.replicate 1000 0x61#8))
      = [0x02#8, 0#8, 0#8, 0x03#8, 0xE8#8] ++ List.replicate 1000 0x61#8 :=
    congrArg (· ++ List.replicate 1000 0x61#8) (by decide)
  rw [assemble, List.flatMap_singleton, bytes_absorbRep, hheader]

end Sys2Proof.Machine
end

