-- ==== Sys2Proof/Proofs/Responses.lean ====
section
/-! PROOF. What one frame does at the channels: the step that a whole or an unfinished frame gives, and the one response that a
frame appends (30_encoding.md R53, R55, R57). -/

namespace Sys2Proof.Machine

/-- Settles O43: the frame is what the decoder fetches, and `State.consumed` is the state with it consumed. -/
theorem stepRunsTheDecodedCommand : Obligations.StepRunsTheDecodedCommand :=
  fun _ _ _ hl hf => step_of_complete hl hf

/-- Settles O44: the step waits for the rest of the frame, and `State.waiting` moves DEC and consumes the bytes. -/
theorem partialFrameOnlyMovesDec : Obligations.PartialFrameOnlyMovesDec :=
  fun _ _ hl hc hf => (step_of_incomplete hl hf).trans (awaitBytes_of_ne_nil hc)

/-- The bytes after the status byte: DIGEST for a GET_DIGEST in FINALIZED, none otherwise (R55). -/
def State.responseData (i : Instr) (s : State) : List Byte :=
  if i = .getDigest ∧ s.phase = .finalized then s.digest.toList else []

theorem responseData_of_ne_getDigest {i : Instr} (s : State) (h : i ≠ .getDigest) : s.responseData i = [] :=
  if_neg fun hi => h hi.1

theorem responseData_getDigest {s : State} (hp : s.phase = .finalized) : s.responseData .getDigest = s.digest.toList :=
  if_pos ⟨rfl, hp⟩

/-- A frame with an error condition is no GET_DIGEST in FINALIZED. -/
theorem responseData_of_codeOf_ne_ok {i : Instr} {s : State} (hc : codeOf i s.phase ≠ .ok) : s.responseData i = [] :=
  if_neg fun ⟨hi, hp⟩ => hc (by rw [hi, hp]; rfl)

/-- The whole of what a command appends to the response channel (R53, R55). -/
theorem exec_response {i : Instr} {s t : State} (h : exec i s = .next t) :
    t.responseChannel = s.responseChannel ++ statusByte (codeOf i s.phase) t.phase :: s.responseData i := by
  rcases command_cases i s.phase with rfl | ⟨len, data, rfl, hp⟩ | ⟨rfl, hp⟩ | ⟨rfl, hp⟩ | hc
  · cases (exec_reset s).symm.trans h
    simp [codeOf, responseData_of_ne_getDigest]
  · cases (exec_absorb len data hp).symm.trans h
    simp [codeOf, responseData_of_ne_getDigest]
  · cases (exec_finalize hp).symm.trans h
    simp [codeOf, responseData_of_ne_getDigest]
  · cases (exec_getDigest hp).symm.trans h
    simp [codeOf, hp, responseData_getDigest]
  · cases (exec_of_codeOf_ne_ok hc).symm.trans h
    rw [responseData_of_codeOf_ne_ok hc]
    rfl

/-- Settles O38: the response is a status byte with its three fields, and the data of the response. -/
theorem oneResponsePerFrame : Obligations.OneResponsePerFrame := by
  intro s i
  obtain ⟨t, he⟩ := exec_next i s
  exact ⟨t, statusByte (codeOf i s.phase) t.phase, s.responseData i, he, exec_response he, statusByte_code _ _,
    statusByte_phase _ _, statusByte_zero _ _, rfl⟩

end Sys2Proof.Machine
end

