-- ==== Sys2Proof/Proofs/MessageDigest.lean ====
section
/-! PROOF. From RESET to FINALIZE: the digest is that of the bytes absorbed, however they were cut into frames (30_encoding.md
R61; 43_streaming_buffer.md R102; 44_finalizer.md R113 to R116). -/

namespace Sys2Proof.Machine

/-! ## FINALIZE in a state that holds a message (R113 to R116) -/

/-- How many bytes of a stream form no block yet. -/
theorem streamTail_length (stream : List Byte) : (streamTail stream).length = stream.length % 64 := by
  rw [streamTail, List.length_drop]
  omega

/-- FILL is what the message leaves over (R20, R21). -/
theorem fill_of_holds {s : State} {message : List Byte} (h : s.Holds message) : s.fill.toNat = message.length % 64 := by
  obtain ⟨-, hpending, -⟩ := h
  rw [← pending_length, hpending, streamTail_length]

/-- The captured length field is the message's (R113). -/
theorem lengthField_of_holds {s : State} {message : List Byte} (h : s.Holds message) :
    s.lengthField = lengthFieldOf message := by
  obtain ⟨-, -, hcount⟩ := h
  have hhi : (bitLength message).extractLsb' 32 32 = s.countHi := by
    rw [← hcount, State.count]
    exact (BitVec.extractLsb'_append_eq_of_le (by omega)).trans BitVec.extractLsb'_eq_self
  have hlo : (bitLength message).extractLsb' 0 32 = s.countLo := by
    rw [← hcount, State.count]
    exact (BitVec.extractLsb'_append_eq_of_add_le (by omega)).trans BitVec.extractLsb'_eq_self
  rw [State.lengthField, lengthFieldOf, hhi, hlo]

/-- FINALIZE continues the stream with the padding, so DIGEST is the digest of the padded message (R116). -/
theorem finalizeFrame_digest_of_holds {s : State} {message : List Byte} (h : s.Holds message) :
    s.finalizeFrame.digest = sha1 message := by
  have hfill := fill_of_holds h
  have hfield := lengthField_of_holds h
  obtain ⟨hh, hpending, -⟩ := h
  rw [finalizeFrame_digest, pad_eq_absorbBytes (lengthField_length s), absorbBytes_h_eq_hashStream, hh, hpending,
    ← hashStream_append, hfill, hfield, sha1, paddedMessage]

/-! ## RESET and ABSORB frames (R61, R102, R107) -/

/-- RESET begins the empty stream (R107). -/
theorem initialise_holds (s : State) : s.initialise.Holds [] := by
  refine ⟨rfl, ?_, ?_⟩
  · rw [State.pending, initialise_fill]
    rfl
  · rw [State.count, initialise_countHi, initialise_countLo]
    rfl

/-- Commands after other commands go on from the state those leave. -/
theorem execAll_append {is js : List Instr} : ∀ {s t : State}, execAll is s = .next t →
    execAll (is ++ js) s = execAll js t := by
  induction is with
  | nil => intro s t h; cases h; rfl
  | cons i is ih =>
    intro s t h
    obtain ⟨u, hu⟩ := exec_next i s
    rw [execAll_cons_of_exec hu] at h
    rw [List.cons_append, execAll_cons_of_exec hu, ih h]

/-- One ABSORB frame outside FINALIZED extends the stream and does not enter FINALIZED (R109). -/
theorem exec_absorbOf_holds {s : State} {stream data : List Byte} (hl : data.length ≤ Config.maxFrameLen) (h : s.Holds stream)
    (hp : s.phase ≠ .finalized) :
    ∃ t, exec (absorbOf data) s = .next t ∧ t.Holds (stream ++ data) ∧ t.phase ≠ .finalized := by
  have hlen : data.length = (BitVec.ofNat 32 data.length).toNat := by
    rw [BitVec.toNat_ofNat, Nat.mod_eq_of_lt (by rw [Config.maxFrameLen] at hl; omega)]
  obtain ⟨t, he, ht⟩ := absorbExtendsTheStream s stream (BitVec.ofNat 32 data.length) data h hp hlen
  refine ⟨t, he, ht, ?_⟩
  cases (exec_absorb _ data hp).symm.trans he
  rw [respond_phase, absorbFrame_phase]
  split
  · exact hp
  · decide

/-- Any number of ABSORB frames extend the stream by their pieces in order (R102). -/
theorem execAll_absorbs_holds : ∀ {pieces : List (List Byte)} {s : State} {stream : List Byte},
    (∀ p ∈ pieces, p.length ≤ Config.maxFrameLen) → s.Holds stream → s.phase ≠ .finalized →
      ∃ t, execAll (pieces.map absorbOf) s = .next t ∧ t.Holds (stream ++ pieces.flatten) ∧ t.phase ≠ .finalized
  | [], s, stream, _, h, hp => ⟨s, rfl, by rwa [List.flatten_nil, List.append_nil], hp⟩
  | p :: ps, s, stream, hl, h, hp => by
    obtain ⟨hlp, hlps⟩ := List.forall_mem_cons.mp hl
    obtain ⟨u, he, hu, hup⟩ := exec_absorbOf_holds hlp h hp
    obtain ⟨t, hall, ht, htp⟩ := execAll_absorbs_holds hlps hu hup
    refine ⟨t, (execAll_cons_of_exec he _).trans hall, ?_, htp⟩
    rwa [List.flatten_cons, ← List.append_assoc]

/-- RESET, any ABSORB frames and FINALIZE, from any state: the digest of all the pieces in order (R102, R146). -/
theorem execAll_message {pieces : List (List Byte)} (s : State) (hl : ∀ p ∈ pieces, p.length ≤ Config.maxFrameLen) :
    ∃ t, execAll ([.reset] ++ pieces.map absorbOf ++ [.finalize]) s = .next t ∧ t.phase = .finalized
      ∧ t.digest = sha1 pieces.flatten := by
  obtain ⟨u, habs, hu, hup⟩ := execAll_absorbs_holds (s := s.initialise.respond .ok) hl (initialise_holds s) (by simp)
  have hreset : execAll [.reset] s = .next (s.initialise.respond .ok) := rfl
  have hall : execAll ([.reset] ++ pieces.map absorbOf) s = .next u := (execAll_append hreset).trans habs
  refine ⟨u.finalizeFrame.respond .ok, ?_, ?_, ?_⟩
  · rw [execAll_append hall, execAll_cons_of_exec (exec_finalize hup), execAll]
  · rw [respond_phase, finalizeFrame_phase]
  · rw [respond_digest, finalizeFrame_digest_of_holds hu, List.nil_append]

/-! ## The pieces of `ABSORB.CHUNKED` (R61) -/

/-- Put together, the pieces are the string; k = 0 would give pieces of no bytes. -/
theorem flatten_piecesOf {k : Nat} (hk : 0 < k) : ∀ {fuel : Nat} {data : List Byte}, data.length ≤ fuel →
    (piecesOf k fuel data).flatten = data
  | 0, [], _ => rfl
  | _ + 1, [], _ => rfl
  | fuel + 1, b :: bs, hl => by
    have hrest : ((b :: bs).drop k).length ≤ fuel := by
      rw [List.length_drop]
      omega
    rw [piecesOf, List.flatten_cons, flatten_piecesOf hk hrest, List.take_append_drop]

theorem flatten_chunks {k : Nat} (hk : 0 < k) (data : List Byte) : (chunks k data).flatten = data :=
  flatten_piecesOf hk le_rfl

/-- No piece has more than k bytes. -/
theorem length_le_of_mem_piecesOf {k : Nat} {p : List Byte} : ∀ {fuel : Nat} {data : List Byte},
    p ∈ piecesOf k fuel data → p.length ≤ k
  | _ + 1, b :: bs, h => by
    rcases List.mem_cons.mp h with rfl | h
    · exact List.length_take_le k (b :: bs)
    · exact length_le_of_mem_piecesOf h

/-- Settles O33: the pieces fit their frames, and put together they are the string. -/
theorem chunkedDigestIndependentOfPieceSize : Obligations.ChunkedDigestIndependentOfPieceSize := by
  intro s k data hk hmax
  obtain ⟨t, hall, -, hdigest⟩ := execAll_message (pieces := chunks k data) s
    fun _ hp => (length_le_of_mem_piecesOf hp).trans hmax
  exact ⟨t, hall, by rw [hdigest, flatten_chunks hk]⟩

end Sys2Proof.Machine
end

section
/-! PROOF. The word codec's two directions undo each other (40_word_codec.md R69). Loading is the assembly of the LEN field
(R50) at an offset, so the decoder's lemmas about that field serve here. -/

namespace Sys2Proof.Machine

/-- The codec puts four bytes together as the decoder does a LEN field (R50, R64). -/
theorem be32Load_eq_lenField (bytes : List Byte) (o : Nat) :
    be32Load bytes o
      = lenField (bytes.getD o 0#8) (bytes.getD (o + 1) 0#8) (bytes.getD (o + 2) 0#8) (bytes.getD (o + 3) 0#8) := rfl

/-- The codec takes a word apart as the encoder does LEN (R48, R65). -/
theorem encode_absorb_eq_be32Store (len : Word) (data : List Byte) :
    encode (.absorb len data) = [0x02#8] ++ be32Store len ++ data := rfl

theorem be32Load_be32Store (w : Word) : be32Load (be32Store w) 0 = w := by
  rw [be32Load_eq_lenField]
  exact lenField_of_bytes w

/-- Storing a word gives back the four bytes it was put together from. -/
theorem be32Store_lenField (b1 b2 b3 b4 : Byte) : be32Store (lenField b1 b2 b3 b4) = [b1, b2, b3, b4] := by
  have h := encode_absorb_lenField b1 b2 b3 b4 []
  rw [encode_absorb_eq_be32Store] at h
  simpa using h

/-- The four bytes at an offset that leaves room for them (R64's operand condition). -/
theorem take_four_drop_eq_getD {bytes : List Byte} {o : Nat} (h : o + 3 < bytes.length) :
    (bytes.drop o).take 4
      = [bytes.getD o 0#8, bytes.getD (o + 1) 0#8, bytes.getD (o + 2) 0#8, bytes.getD (o + 3) 0#8] := by
  have drop_cons : ∀ k < bytes.length, bytes.drop k = bytes.getD k 0#8 :: bytes.drop (k + 1) := fun k hk => by
    rw [List.drop_eq_getElem_cons hk, List.getD_eq_getElem _ _ hk]
  rw [drop_cons o (by omega), drop_cons (o + 1) (by omega), drop_cons (o + 2) (by omega), drop_cons (o + 3) h]
  rfl

theorem be32Store_be32Load {bytes : List Byte} {o : Nat} (h : o + 3 < bytes.length) :
    be32Store (be32Load bytes o) = (bytes.drop o).take 4 := by
  rw [be32Load_eq_lenField, be32Store_lenField, take_four_drop_eq_getD h]

/-- Settles O7, by the two directions of the codec. -/
theorem codecRoundTrips : Obligations.CodecRoundTrips :=
  ⟨be32Load_be32Store, fun _ _ h => be32Store_be32Load h⟩

end Sys2Proof.Machine
end

section
/-! PROOF. The message schedule (41_message_schedule.md R71 to R78): what its 80 words are, that the expansion is linear, and that
the circular 16-word workspace and the in-place rounds over it (42_compression.md R87) compute the same transform. -/

namespace Sys2Proof.Machine

/-! ## The recurrence (R72) -/

/-- The right side of R72 for word t, over any indexing of the earlier words: the 80-word list and the circular workspace are two
of them. -/
def recurrenceWord (w : Nat → Word) (t : Nat) : Word :=
  rotl (w (t - 3) ^^^ w (t - 8) ^^^ w (t - 14) ^^^ w (t - 16)) 1

theorem nextScheduleWord_eq_recurrenceWord (ws : List Word) :
    nextScheduleWord ws = recurrenceWord (ws.getD · 0#32) ws.length := rfl

/-- Word t depends on the 16 words before it only. -/
theorem recurrenceWord_congr {w w' : Nat → Word} {t : Nat} (ht : 16 ≤ t) (h : ∀ u < t, t ≤ u + 16 → w u = w' u) :
    recurrenceWord w t = recurrenceWord w' t := by
  simp only [recurrenceWord]
  rw [h (t - 3) (by omega) (by omega), h (t - 8) (by omega) (by omega), h (t - 14) (by omega) (by omega),
    h (t - 16) (by omega) (by omega)]

/-- Rotation distributes over xor (R76): a bit of the result comes from one of the two shifts, never from both. -/
theorem rotl_xor (x y : Word) (n : Nat) : rotl (x ^^^ y) n = rotl x n ^^^ rotl y n := by
  apply BitVec.eq_of_getLsbD_eq
  intro i hi
  simp only [rotl, BitVec.getLsbD_or, BitVec.getLsbD_xor, BitVec.getLsbD_shiftLeft, BitVec.getLsbD_ushiftRight]
  by_cases hn : i < n
  · simp [hn]
  · have hz : ∀ z : Word, z.getLsbD (32 - n + i) = false := fun z => BitVec.getLsbD_of_ge z _ (by omega)
    simp [hz, hn, hi]

theorem recurrenceWord_xor (w w' : Nat → Word) (t : Nat) :
    recurrenceWord (fun u => w u ^^^ w' u) t = recurrenceWord w t ^^^ recurrenceWord w' t := by
  simp only [recurrenceWord, ← rotl_xor]
  congr 1
  ac_rfl

/-! ## The 80-word form (R71, R72, R78) -/

theorem extendSchedule_length : ∀ (k : Nat) (ws : List Word), (extendSchedule k ws).length = ws.length + k
  | 0, _ => rfl
  | k + 1, ws => by
    rw [extendSchedule, extendSchedule_length k, List.length_append, List.length_singleton]
    omega

/-- Extending a schedule keeps its words. -/
theorem extendSchedule_getD_of_lt : ∀ (k : Nat) {ws : List Word} {t : Nat}, t < ws.length →
    (extendSchedule k ws).getD t 0#32 = ws.getD t 0#32
  | 0, _, _, _ => rfl
  | k + 1, ws, t, ht => by
    have hlt : t < (ws ++ [nextScheduleWord ws]).length := by
      rw [List.length_append]
      omega
    rw [extendSchedule, extendSchedule_getD_of_lt k hlt, List.getD_append _ _ _ _ ht]

/-- Each word added is the recurrence over the whole extended schedule, since extending keeps the words it was computed from. -/
theorem extendSchedule_getD_of_le : ∀ (k : Nat) {ws : List Word} {t : Nat}, 16 ≤ ws.length → ws.length ≤ t →
    t < ws.length + k →
      (extendSchedule k ws).getD t 0#32 = recurrenceWord ((extendSchedule k ws).getD · 0#32) t
  | 0, _, _, _, hle, hlt => absurd hlt (by omega)
  | k + 1, ws, t, hws, hle, hlt => by
    have hlen : (ws ++ [nextScheduleWord ws]).length = ws.length + 1 := List.length_append
    obtain rfl | hlt' := hle.eq_or_lt
    · have hkept : ∀ u < ws.length, ws.length ≤ u + 16 → ws.getD u 0#32 = (extendSchedule (k + 1) ws).getD u 0#32 :=
        fun u hu _ => (extendSchedule_getD_of_lt (k + 1) hu).symm
      calc (extendSchedule (k + 1) ws).getD ws.length 0#32
          = (ws ++ [nextScheduleWord ws]).getD ws.length 0#32 := extendSchedule_getD_of_lt k (by omega)
        _ = nextScheduleWord ws := by simp
        _ = recurrenceWord (ws.getD · 0#32) ws.length := nextScheduleWord_eq_recurrenceWord ws
        _ = recurrenceWord ((extendSchedule (k + 1) ws).getD · 0#32) ws.length := recurrenceWord_congr hws hkept
    · exact extendSchedule_getD_of_le k (by omega) (by omega) (by omega)

theorem schedule_length (blk : Vector Byte 64) : (schedule blk).length = 80 := by
  rw [schedule, extendSchedule_length, Vector.length_toList]

/-- R67: word t of a block is loaded at offset 4t. -/
theorem blockWords_getD (blk : Vector Byte 64) {t : Nat} (ht : t < 16) :
    (blockWords blk).toList.getD t 0#32 = be32Load blk.toList (4 * t) := by
  rw [blockWords, Vector.toList_ofFn, List.getD_eq_getElem _ _ (by simpa using ht), List.getElem_ofFn]

theorem schedule_getD_of_lt (blk : Vector Byte 64) {t : Nat} (ht : t < 16) :
    (schedule blk).getD t 0#32 = be32Load blk.toList (4 * t) := by
  rw [schedule, extendSchedule_getD_of_lt _ (by rwa [Vector.length_toList]), blockWords_getD blk ht]

theorem schedule_getD_of_le (blk : Vector Byte 64) {t : Nat} (h16 : 16 ≤ t) (h80 : t < 80) :
    (schedule blk).getD t 0#32 = recurrenceWord ((schedule blk).getD · 0#32) t :=
  have hlen : (blockWords blk).toList.length = 16 := Vector.length_toList
  extendSchedule_getD_of_le 64 (by omega) (by omega) (by omega)

/-- A load puts four bytes one after the other (R64). -/
theorem be32Load_eq_append (bytes : List Byte) (o : Nat) :
    be32Load bytes o = (bytes.getD o 0#8 ++ bytes.getD (o + 1) 0#8 ++ bytes.getD (o + 2) 0#8 ++ bytes.getD (o + 3) 0#8 :
      BitVec 32) := by
  rw [be32Load_eq_lenField, lenField_eq_append]

/-- Settles O9: the block's words are loads, and the others are the recurrence. -/
theorem scheduleRecurrence : Obligations.ScheduleRecurrence := fun blk =>
  ⟨schedule_length blk, fun _ ht => by rw [schedule_getD_of_lt blk ht, be32Load_eq_append],
    fun _ h16 h80 => schedule_getD_of_le blk h16 h80⟩

/-! ## Linearity over xor (R76) -/

theorem blockXor_getD (a b : Vector Byte 64) {i : Nat} (hi : i < 64) :
    (Vector.ofFn fun i => a[i] ^^^ b[i]).toList.getD i 0#8 = a.toList.getD i 0#8 ^^^ b.toList.getD i 0#8 := by
  simp [hi]

/-- Four bytes put together are linear in each byte (R64). -/
theorem lenField_xor (a1 a2 a3 a4 b1 b2 b3 b4 : Byte) :
    lenField (a1 ^^^ b1) (a2 ^^^ b2) (a3 ^^^ b3) (a4 ^^^ b4) = lenField a1 a2 a3 a4 ^^^ lenField b1 b2 b3 b4 := by
  have happend : (a1 ++ a2 ++ a3 ++ a4) ^^^ (b1 ++ b2 ++ b3 ++ b4)
      = (a1 ^^^ b1) ++ (a2 ^^^ b2) ++ (a3 ^^^ b3) ++ (a4 ^^^ b4) := by
    simp only [BitVec.xor_append]
  simp only [lenField_eq_append]
  exact happend.symm

theorem be32Load_blockXor (a b : Vector Byte 64) {t : Nat} (ht : t < 16) :
    be32Load (Vector.ofFn fun i => a[i] ^^^ b[i]).toList (4 * t) = be32Load a.toList (4 * t) ^^^ be32Load b.toList (4 * t) := by
  simp only [be32Load_eq_lenField, ← lenField_xor]
  rw [blockXor_getD a b (by omega), blockXor_getD a b (by omega), blockXor_getD a b (by omega), blockXor_getD a b (by omega)]

/-- By strong induction on t: loading is linear, and so is the recurrence. -/
theorem schedule_blockXor_getD (a b : Vector Byte 64) (t : Nat) (ht : t < 80) :
    (schedule (Vector.ofFn fun i => a[i] ^^^ b[i])).getD t 0#32 = (schedule a).getD t 0#32 ^^^ (schedule b).getD t 0#32 := by
  induction t using Nat.strong_induction_on with
  | _ t ih =>
    by_cases h16 : t < 16
    · rw [schedule_getD_of_lt _ h16, schedule_getD_of_lt a h16, schedule_getD_of_lt b h16, be32Load_blockXor a b h16]
    · have hle : 16 ≤ t := by omega
      rw [schedule_getD_of_le _ hle ht, schedule_getD_of_le a hle ht, schedule_getD_of_le b hle ht, ← recurrenceWord_xor]
      exact recurrenceWord_congr hle fun u hu _ => ih u hu (by omega)

/-- The zero block is the xor of itself with itself, so each word of its schedule is. -/
theorem schedule_zeroBlock : schedule (Vector.replicate 64 0#8) = List.replicate 80 0#32 := by
  have hself : (Vector.ofFn fun i : Fin 64 => (Vector.replicate 64 0#8)[i] ^^^ (Vector.replicate 64 0#8)[i])
      = Vector.replicate 64 0#8 := by
    ext i hi
    simp
  rw [List.eq_replicate_iff]
  refine ⟨schedule_length _, fun w hw => ?_⟩
  obtain ⟨t, ht, rfl⟩ := List.mem_iff_getElem.mp hw
  have h := schedule_blockXor_getD (Vector.replicate 64 0#8) (Vector.replicate 64 0#8) t (by rwa [schedule_length] at ht)
  rwa [hself, BitVec.xor_self, List.getD_eq_getElem _ _ ht] at h

/-- Settles O11: linearity, and the zero block as a case of it. -/
theorem scheduleIsLinear : Obligations.ScheduleIsLinear :=
  ⟨schedule_zeroBlock, schedule_blockXor_getD⟩

/-! ## The circular workspace (R73, R74) -/

theorem circularStep_of_lt {t : Nat} (ht : t < 16) (x : Vector Word 16) : circularStep t x = x := if_pos ht

/-- The slot a round rewrites gets the recurrence over the workspace: (s+13), (s+8), (s+2) and s modulo 16 are the slots of words
t-3, t-8, t-14 and t-16. -/
theorem circularWord_circularStep_self {t : Nat} (ht : 16 ≤ t) (x : Vector Word 16) :
    circularWord t (circularStep t x) = recurrenceWord (circularWord · x) t := by
  have hslot : t % 16 < x.toList.length := by
    rw [Vector.length_toList]
    omega
  have h3 : (t % 16 + 13) % 16 = (t - 3) % 16 := by omega
  have h8 : (t % 16 + 8) % 16 = (t - 8) % 16 := by omega
  have h14 : (t % 16 + 2) % 16 = (t - 14) % 16 := by omega
  have h16 : t % 16 = (t - 16) % 16 := by omega
  rw [circularStep, if_neg (by omega), circularWord, Vector.toList_setIfInBounds, List.getD_eq_getElem?_getD,
    List.getElem?_set_self hslot, Option.getD_some, h3, h8, h14]
  conv_lhs => rw [h16]
  rfl

theorem circularWord_circularStep_of_ne {t u : Nat} (h : u % 16 ≠ t % 16) (x : Vector Word 16) :
    circularWord u (circularStep t x) = circularWord u x := by
  by_cases ht : t < 16
  · rw [circularStep_of_lt ht]
  · rw [circularStep, if_neg ht, circularWord, Vector.toList_setIfInBounds, List.getD_eq_getElem?_getD,
      List.getElem?_set_ne h.symm, ← List.getD_eq_getElem?_getD, circularWord]

/-- The workspace holds the last 16 of the first m words, word u in slot u mod 16. -/
def HoldsWindow (x : Vector Word 16) (ws : List Word) (m : Nat) : Prop :=
  ∀ u < m, m ≤ u + 16 → circularWord u x = ws.getD u 0#32

theorem blockWords_holdsWindow (blk : Vector Byte 64) : HoldsWindow (blockWords blk) (schedule blk) 16 := fun u hu _ => by
  rw [circularWord, Nat.mod_eq_of_lt hu, blockWords_getD blk hu, schedule_getD_of_lt blk hu]

/-- The invariant of R74: rounds 0 to 15 leave the window W[0..15], and a later round t moves it on to end with W[t]. -/
theorem circularStep_holdsWindow {blk : Vector Byte 64} {t : Nat} {x : Vector Word 16} (ht : t < 80)
    (h : HoldsWindow x (schedule blk) (max 16 t)) : HoldsWindow (circularStep t x) (schedule blk) (max 16 (t + 1)) := by
  by_cases h16 : t < 16
  · rw [circularStep_of_lt h16, show max 16 (t + 1) = max 16 t by omega]
    exact h
  · rw [show max 16 t = t by omega] at h
    rw [show max 16 (t + 1) = t + 1 by omega]
    have hle : 16 ≤ t := by omega
    intro u hu hm
    obtain rfl | hlt := (Nat.le_of_lt_succ hu).eq_or_lt
    · rw [circularWord_circularStep_self hle, schedule_getD_of_le blk hle ht]
      exact recurrenceWord_congr hle h
    · rw [circularWord_circularStep_of_ne (by omega)]
      exact h u hlt (by omega)

theorem circularWord_of_holdsWindow {x : Vector Word 16} {ws : List Word} {t : Nat} (h : HoldsWindow x ws (max 16 (t + 1))) :
    circularWord t x = ws.getD t 0#32 :=
  h t (by omega) (by omega)

theorem circularAt_holdsWindow (blk : Vector Byte 64) : ∀ t < 80,
    HoldsWindow (circularAt blk t) (schedule blk) (max 16 (t + 1))
  | 0, h80 => circularStep_holdsWindow h80 (blockWords_holdsWindow blk)
  | t + 1, h80 => circularStep_holdsWindow h80 (circularAt_holdsWindow blk t (by omega))

/-- Settles O10: round t reads the last word of the window. -/
theorem circularScheduleEqualsSchedule : Obligations.CircularScheduleEqualsSchedule := fun blk t ht =>
  circularWord_of_holdsWindow (circularAt_holdsWindow blk t ht)

/-! ## In-place rounds (R87) over the circular workspace -/

/-- The source's `z += f(w,x,y) + wt + K + rotl(v,5)` is R86's T: the terms of one sum in another order. -/
theorem roundZW_eq (t : Nat) (wt : Word) (v : Working) :
    roundZW t wt v = { v with e := roundT t wt v, b := rotl v.b 30 } := by
  have hsum : v.e + (mix (t / 20) v.b v.c v.d + wt + roundConstant (t / 20) + rotl v.a 5) = roundT t wt v := by
    rw [roundT]
    ac_rfl
  rw [roundZW, hsum]

/-- Reading with the next round's names turns the five variables by one place. -/
theorem renameVars_succ_unrenameVars {k : Nat} (hk : k < 5) (v : Working) :
    renameVars ((k + 1) % 5) (unrenameVars k v) = { a := v.e, b := v.a, c := v.b, d := v.c, e := v.d } := by
  interval_cases k <;> rfl

/-- The in-place round, read with the names of the next round, is the shift round (R87). -/
theorem renameVars_inPlaceRound (t : Nat) (wt : Word) (s : Working) :
    renameVars ((t + 1) % 5) (inPlaceRound t wt s) = sha1Round t wt (renameVars (t % 5) s) := by
  rw [inPlaceRound, show (t + 1) % 5 = (t % 5 + 1) % 5 by omega, renameVars_succ_unrenameVars (by omega), roundZW_eq]
  rfl

/-- Simulation of the rounds that are left: the workspace holds the window before round t, and the names are those of round t.
Round 80 would have round 0's names, so the end needs no renaming. -/
theorem circularRounds_eq_sha1Rounds {blk : Vector Byte 64} : ∀ (n : Nat) {t : Nat} {x : Vector Word 16} (s : Working),
    t + n = 80 → HoldsWindow x (schedule blk) (max 16 t) →
      circularRounds n t x s = sha1Rounds t ((schedule blk).drop t) (renameVars (t % 5) s)
  | 0, t, _, s, ht, _ => by
    obtain rfl : t = 80 := ht
    rw [List.drop_eq_nil_of_le (schedule_length blk).le]
    rfl
  | n + 1, t, x, s, ht, hx => by
    have hlt : t < (schedule blk).length := by
      rw [schedule_length]
      omega
    have hstep := circularStep_holdsWindow (by omega) hx
    have hword : circularWord t (circularStep t x) = (schedule blk)[t] := by
      rw [circularWord_of_holdsWindow hstep, List.getD_eq_getElem _ _ hlt]
    rw [circularRounds, circularRounds_eq_sha1Rounds n _ (by omega) hstep, renameVars_inPlaceRound, hword,
      List.drop_eq_getElem_cons hlt, sha1Rounds]

/-- Settles O15, by simulating the 80 rounds from the block's own words. -/
theorem inPlaceTransformEqualsTransform : Obligations.InPlaceTransformEqualsTransform := fun h blk => by
  rw [transformInPlace, circularRounds_eq_sha1Rounds 80 (workingOf h) rfl (blockWords_holdsWindow blk)]
  rfl

end Sys2Proof.Machine
end

section
/-! PROOF. The compression transform (42_compression.md R81 to R92): the mixing functions in their in-place forms, the in-place
round, and the transform as 80 rounds. -/

namespace Sys2Proof.Machine

/-! ## The mixing functions (R82, R84) -/

/-- Choose: where a bit of b is set, both sides are the bit of c, and elsewhere the bit of d. -/
theorem f0_eq_xor_and_xor (b c d : Word) : f0 b c d = (b &&& (c ^^^ d)) ^^^ d := by
  apply BitVec.eq_of_getLsbD_eq
  intro i hi
  simp only [f0, BitVec.getLsbD_or, BitVec.getLsbD_and, BitVec.getLsbD_xor, BitVec.getLsbD_not, hi, decide_true, Bool.true_and]
  cases b.getLsbD i with
  | true => simp
  | false => simp

/-- Majority: the two conjunctions with d are one, as conjunction distributes over disjunction. -/
theorem f2_eq_or_and_or (b c d : Word) : f2 b c d = ((b ||| c) &&& d) ||| (b &&& c) := by
  rw [f2, BitVec.and_or_distrib_right]
  ac_rfl

/-- Settles O12: choose bit by bit, majority by distributivity; parity is written the same way in both forms. -/
theorem mixingFunctionForms : Obligations.MixingFunctionForms := fun b c d =>
  ⟨f0_eq_xor_and_xor b c d, rfl, f2_eq_or_and_or b c d, rfl⟩

/-! ## The in-place round (R87) -/

/-- Settles O13: the names of the next round turn the variables by one place, and what the round writes to z is T. -/
theorem inPlaceRoundEqualsRound : Obligations.InPlaceRoundEqualsRound := fun t wt s =>
  ⟨renameVars_inPlaceRound t wt s, roundZW_eq t wt s⟩

/-! ## The transform as a sequence of rounds (R89 to R92) -/

/-- The rounds over a list of words end where any sequence ends that takes them one by one (R90). -/
theorem sha1Rounds_eq_of_trace {v : Nat → Working} : ∀ (ws : List Word) {t : Nat},
    (∀ i < ws.length, v (t + i + 1) = sha1Round (t + i) (ws.getD i 0#32) (v (t + i))) →
      sha1Rounds t ws (v t) = v (t + ws.length)
  | [], _, _ => rfl
  | w :: ws, t, h => by
    have hfirst : v (t + 1) = sha1Round t w (v t) := h 0 ws.length.succ_pos
    have hrest : ∀ i < ws.length, v (t + 1 + i + 1) = sha1Round (t + 1 + i) (ws.getD i 0#32) (v (t + 1 + i)) := fun i hi => by
      rw [Nat.add_right_comm t 1 i]
      exact h (i + 1) (Nat.succ_lt_succ hi)
    rw [sha1Rounds, ← hfirst, sha1Rounds_eq_of_trace ws hrest, List.length_cons, Nat.add_right_comm, Nat.add_assoc]

/-- Settles O14: the sequence ends the 80 rounds over the schedule, and the feed-forward adds its last member. -/
theorem transformIsEightyRounds : Obligations.TransformIsEightyRounds := fun h blk v hinit hround => by
  have hend : sha1Rounds 0 (schedule blk) (v 0) = v 80 := by
    rw [sha1Rounds_eq_of_trace (schedule blk), schedule_length]
    intro i hi
    rw [schedule_length] at hi
    rw [Nat.zero_add]
    exact hround i hi
  rw [transform, ← hinit, hend, feedForward]

end Sys2Proof.Machine
end

section
/-! PROOF. The streaming buffer (43_streaming_buffer.md): the counter and the absorb step, the source's three-part absorb, and
what RESET and ABSORB do and leave alone. -/

namespace Sys2Proof.Machine

/-! ## The counter and the absorb step (R96, R101, R102) -/

/-- Settles O16: the carry and the three bits of n above the low word are what 64-bit addition adds to the high word. -/
theorem counterAddIsSixtyFourBitAddition : Obligations.CounterAddIsSixtyFourBitAddition :=
  ⟨counterAdd_append, by decide⟩

/-- Settles O17, by the loop's own count of its transforms and of its bytes. -/
theorem absorbTransformCount : Obligations.AbsorbTransformCount := fun s data _ =>
  ⟨absorbBytes_transformsRun_eq data s, absorbBytes_fill data s⟩

/-- Settles O18: the counter adds up in 64 bits, and within one frame's length the two absorbs leave the very state of one. -/
theorem chunkingInvariance : Obligations.ChunkingInvariance := fun s a b ha hb => by
  refine ⟨?_, fun hab => ?_⟩
  · rw [absorbBytes_count, absorbBytes_count, Nat.mod_eq_of_lt ha, Nat.mod_eq_of_lt hb, BitVec.add_assoc, ← BitVec.ofNat_add,
      ← Nat.mul_add, List.length_append]
  · have hone := absorbBytes_absorbBytes hab s
    exact ⟨congrArg State.h hone, congrArg State.count hone, congrArg State.pending hone⟩

/-! ## The source's three-part absorb (R99) -/

/-- Copied to the front of a buffer, a tail of less than a block is what stands there. -/
theorem take_copyInto_zero (buf : Vector Byte 64) {tail : List Byte} (hl : tail.length < 64) :
    (copyInto buf 0 tail).toList.take tail.length = tail := by
  apply List.ext_getElem
  · simp; omega
  · intro i _ hi
    rw [List.getElem_take, Vector.getElem_toList, copyInto_getElem, if_pos (by omega), Nat.sub_zero, List.getD_eq_getElem _ _ hi]

/-- Equal H, j, BUF[0..j-1] and number of transforms: what R99 compares. -/
abbrev SameFilling (f g : Filling) : Prop :=
  f.h = g.h ∧ f.j = g.j ∧ f.runs = g.runs ∧ f.buf.toList.take f.j = g.buf.toList.take g.j

/-- From an empty buffer on, the loop is whole blocks straight from the input and a copied tail (R99). -/
theorem directBlocks_sameFilling_absorbLoop {f : Filling} (hj : f.j = 0) (data : List Byte) :
    SameFilling
      { h := directBlocks (data.length / 64) f.h data, buf := copyInto f.buf 0 (streamTail data), j := data.length % 64,
        runs := f.runs + data.length / 64 }
      (absorbLoop f data) := by
  have hlt : f.j < 64 := by omega
  obtain ⟨hh, hbuf⟩ := absorbLoop_stream data hlt
  rw [hj, List.take_zero, List.nil_append] at hh hbuf
  refine ⟨hh.symm, ?_, ?_, ?_⟩
  · rw [absorbLoop_j data hlt, hj, Nat.zero_add]
  · rw [absorbLoop_runs data hlt, hj, Nat.zero_add]
  · rw [hbuf, ← streamTail_length]
    exact take_copyInto_zero f.buf (by rw [streamTail_length]; omega)

/-- The three parts are the loop: below a full buffer only the copy, and otherwise the loop cut where the buffer is full. -/
theorem absorbDirect_sameFilling_absorbLoop {f : Filling} (hj : f.j < 64) (data : List Byte) :
    SameFilling (absorbDirect f data) (absorbLoop f data) := by
  by_cases hshort : f.j + data.length < 64
  · rw [absorbDirect, if_pos hshort, absorbLoop_of_short data hshort]
    exact ⟨rfl, rfl, rfl, rfl⟩
  · have hfull : f.j + (data.take (64 - f.j)).length = 64 := by
      rw [List.length_take]
      omega
    have hfirst := absorbLoop_of_full (data.take (64 - f.j)) hfull hj
    have hrest := directBlocks_sameFilling_absorbLoop (congrArg Filling.j hfirst) (data.drop (64 - f.j))
    rw [← absorbLoop_append, List.take_append_drop, hfirst] at hrest
    rw [absorbDirect, if_neg hshort]
    exact hrest

/-- Settles O19: the two forms update the counter alike, and their loop variables agree up to BUF[FILL..63]. -/
theorem threePartAbsorbEqualsLoop : Obligations.ThreePartAbsorbEqualsLoop := fun s data _ => by
  obtain ⟨hh, hj, hruns, hbuf⟩ := absorbDirect_sameFilling_absorbLoop (f := s.filling) (fill_toNat_lt s) data
  have hfill : (s.absorbBytesDirect data).fill = (s.absorbBytes data).fill := rfl
  refine ⟨hh, rfl, hfill, ?_, congrArg (s.transformsRun + ·) hruns⟩
  rw [State.pending, State.pending, hfill, absorbBytes_fill_eq_j, absorbBytes_buf, ← hbuf, hj]
  rfl

/-! ## RESET (R107, R108) -/

/-- The response to a command that is no misuse: one status byte and nothing else (R53). -/
theorem respond_ok_eq (s : State) :
    s.respond .ok = { s with responseChannel := s.responseChannel ++ [statusByte .ok s.phase] } := by
  rw [State.respond, show Code.ok.isError = false by decide, Bool.or_false]

theorem statusByte_ok_idle : statusByte .ok .idle = 0x00#8 := by decide

theorem statusByte_ok_absorbing : statusByte .ok .absorbing = 0x08#8 := by decide

/-- What RESET answers: the values of R107 and the status byte 0x00. -/
theorem exec_reset_eq (s : State) :
    exec .reset s = .next { s.initialise with responseChannel := s.responseChannel ++ [0x00#8] } := by
  rw [exec_reset, respond_ok_eq, initialise_phase, statusByte_ok_idle]
  rfl

/-- Only RESET leaves FINALIZED: ABSORB needs IDLE to write PHASE, and FINALIZE writes FINALIZED (R22). -/
theorem exec_keeps_finalized {s : State} {i : Instr} (hp : s.phase = .finalized) (hi : i ≠ .reset) :
    ∃ t, exec i s = .next t ∧ t.phase = .finalized := by
  obtain ⟨t, he, ht⟩ := phaseWriters s i
  refine ⟨t, he, ht.trans ?_⟩
  cases i with
  | reset => exact absurd rfl hi
  | absorb len data => simp [hp]
  | finalize => rfl
  | getDigest => exact hp
  | illegal op => exact hp

/-- Settles O20: RESET's values written out, and a second RESET finds them there already. -/
theorem resetCompletes : Obligations.ResetCompletes :=
  ⟨rfl, exec_reset_eq, fun s => ⟨_, _, exec_reset_eq s, exec_reset_eq _, rfl⟩, fun _ _ => exec_keeps_finalized⟩

/-- The digest of the empty message (R108): one block, of padding alone. -/
theorem sha1_nil :
    (sha1 []).toList = [0xDA#8, 0x39#8, 0xA3#8, 0xEE#8, 0x5E#8, 0x6B#8, 0x4B#8, 0x0D#8, 0x32#8, 0x55#8,
                        0xBF#8, 0xEF#8, 0x95#8, 0x60#8, 0x18#8, 0x90#8, 0xAF#8, 0xD8#8, 0x07#8, 0x09#8] := by
  decide +kernel

/-- Settles O21: RESET begins the empty message, whose digest FINALIZE then produces. -/
theorem resetThenFinalizeGivesEmptyDigest : Obligations.ResetThenFinalizeGivesEmptyDigest := fun s => by
  have hempty : (s.initialise.respond .ok).Holds [] := initialise_holds s
  refine ⟨_, _, exec_reset s, exec_finalize (by simp), ?_⟩
  rw [respond_digest, finalizeFrame_digest_of_holds hempty, sha1_nil]

/-! ## ABSORB (R98, R109) -/

/-- LEN = 0 absorbs nothing and enters no phase (R109). -/
theorem absorbFrame_empty (s : State) : s.absorbFrame 0#32 [] = s := by
  rw [State.absorbFrame, if_pos rfl, absorbBytes_nil]

/-- Settles O24: the frame of an empty ABSORB is the state itself, and the status byte shows its phase. -/
theorem emptyAbsorbIsNoOp : Obligations.EmptyAbsorbIsNoOp := fun s hp => by
  have hstatus : statusByte .ok s.phase = if s.phase = .idle then 0x00#8 else 0x08#8 := by
    cases hs : s.phase with
    | idle => exact statusByte_ok_idle
    | absorbing => exact statusByte_ok_absorbing
    | finalized => exact absurd hs hp
  rw [exec_absorb 0#32 [] hp, absorbFrame_empty, respond_ok_eq, hstatus]

/-- A frame with data enters ABSORBING (R109). -/
theorem absorbFrame_phase_of_pos {len : Word} (hpos : 0 < len.toNat) (data : List Byte) (s : State) :
    (s.absorbFrame len data).phase = .absorbing := by
  rw [absorbFrame_phase, if_neg]
  rintro rfl
  exact absurd hpos (by decide)

/-- Settles O22: the frame around the absorb keeps H, BUF[0..FILL-1], COUNT and the number of transforms. -/
theorem absorbCompletes : Obligations.AbsorbCompletes := fun s len data hp hl hpos => by
  have hlt : data.length < 2 ^ 32 := hl ▸ len.isLt
  have hphase := absorbFrame_phase_of_pos hpos data s
  refine ⟨_, exec_absorb len data hp, ?_, ?_, ?_, ?_, hphase, ?_⟩
  · rw [respond_h, absorbFrame_h, absorbBytes_h_eq_hashStream]
  · rw [respond_pending, absorbFrame_pending, absorbBytes_pending]
  · rw [respond_count, absorbFrame_count, absorbBytes_count, Nat.mod_eq_of_lt hlt, hl]
  · rw [respond_transformsRun, absorbFrame_transformsRun, absorbBytes_transformsRun_eq, hl]
  · rw [respond_responseChannel, absorbFrame_responseChannel, hphase, statusByte_ok_absorbing]

/-- Below FILL, BUF is read off BUF[0..FILL-1]. -/
theorem buf_getD_eq_pending_getD {s : State} {i : Nat} (hi : i < s.fill.toNat) :
    s.buf.toList.getD i 0#8 = s.pending.getD i 0#8 := by
  rw [State.pending, List.getD_eq_getElem?_getD, List.getD_eq_getElem?_getD, List.getElem?_take_of_lt hi]

/-! An ABSORB that completes no block only adds its data to BUF[0..FILL-1] (R98, R99). -/

section
variable {s : State} {data : List Byte} (hshort : s.fill.toNat + data.length < 64)
include hshort

theorem absorbBytes_transformsRun_of_short : (s.absorbBytes data).transformsRun = s.transformsRun := by
  rw [absorbBytes_transformsRun_eq, Nat.div_eq_of_lt hshort, Nat.add_zero]

theorem absorbFrame_transients_of_short (len : Word) : (s.absorbFrame len data).transients = s.transients := by
  rw [State.absorbFrame]
  split
  · rfl
  · rw [leaveUnspecified_transients, absorbBytes_transformsRun_of_short hshort, if_neg (lt_irrefl _), absorbBytes_transients]

theorem absorbFrame_h_of_short (len : Word) : (s.absorbFrame len data).h = s.h := by
  rw [absorbFrame_h, absorbBytes_h_of_no_transform (absorbBytes_transformsRun_of_short hshort)]

theorem absorbFrame_pending_of_short (len : Word) : (s.absorbFrame len data).pending = s.pending ++ data := by
  rw [absorbFrame_pending, absorbBytes_pending, streamTail_of_short]
  rwa [List.length_append, pending_length]

theorem absorbFrame_buf_getD_of_short (len : Word) {i : Nat} (hi : i < s.fill.toNat) :
    (s.absorbFrame len data).buf.toList.getD i 0#8 = s.buf.toList.getD i 0#8 := by
  have hpending := absorbFrame_pending_of_short hshort len
  have hfill : i < (s.absorbFrame len data).fill.toNat := by
    rw [← pending_length, hpending, List.length_append, pending_length]
    omega
  rw [buf_getD_eq_pending_getD hfill, hpending, List.getD_append _ _ _ _ (by rwa [pending_length]),
    buf_getD_eq_pending_getD hi]

end

/-- Settles O23, field by field; while no block completes the absorb only adds bytes behind those in BUF. -/
theorem absorbFrame : Obligations.AbsorbFrame := fun s len data hp hl _ => by
  refine ⟨_, exec_absorb len data hp, ?_, ?_, ?_, ?_, ?_, ?_, ?_, ?_⟩
  · rw [respond_config, absorbFrame_config]
  · rw [respond_digest, absorbFrame_digest]
  · rw [respond_dec, absorbFrame_dec]
  · rw [respond_commandChannel, absorbFrame_commandChannel]
  · rw [respond_hardResetLine, absorbFrame_hardResetLine]
  · simp
  · intro i hi hshort
    exact absorbFrame_buf_getD_of_short (hl ▸ hshort) len hi
  · intro hshort
    rw [← hl] at hshort
    exact ⟨absorbFrame_h_of_short hshort len, absorbFrame_transients_of_short hshort len⟩

end Sys2Proof.Machine
end

section
/-! PROOF. The finalizer (44_finalizer.md): the padding, what FINALIZE does and leaves alone, and GET_DIGEST. -/

namespace Sys2Proof.Machine

/-! ## The padding (R114, R115) -/

/-- Up to fill level 55 the marker and the length field fit the block begun; from 56 on the padding needs a second one. -/
theorem pad_transformsRun {lf : List Byte} (hl : lf.length = 8) (s : State) :
    (s.pad lf).transformsRun = s.transformsRun + (if s.fill.toNat ≤ 55 then 1 else 2) := by
  have hlt := fill_toNat_lt s
  rw [pad_eq_absorbBytes hl, absorbBytes_transformsRun_eq, paddingBytes_length _ hl, zeroBytes]
  split
  · next hfits => omega
  · next hsecond => omega

/-- The padding always ends a block (R115). -/
theorem transformsRun_lt_pad {lf : List Byte} (hl : lf.length = 8) (s : State) :
    s.transformsRun < (s.pad lf).transformsRun := by
  rw [pad_transformsRun hl]
  split <;> omega

/-- The padding is counted like any absorbed bytes (R97, R117). -/
theorem pad_count {lf : List Byte} (hl : lf.length = 8) (s : State) :
    (s.pad lf).count = s.count + BitVec.ofNat 64 (8 * (9 + zeroBytes s.fill.toNat)) := by
  have hz : zeroBytes s.fill.toNat < 64 := Nat.mod_lt _ (by decide)
  rw [pad_eq_absorbBytes hl, absorbBytes_count, paddingBytes_length _ hl, Nat.mod_eq_of_lt (by omega)]

/-- Settles O27: the padded state is that of the one absorb, in every field. -/
theorem paddingIsOneAbsorb : Obligations.PaddingIsOneAbsorb := fun s _ hl =>
  have hone := pad_eq_absorbBytes hl s
  ⟨paddingBytes_length _ hl, congrArg State.h hone, congrArg State.count hone, congrArg State.pending hone,
    pad_transformsRun hl s, pad_fill hl s⟩

/-! ## FINALIZE (R113, R116 to R118) -/

/-- H after FINALIZE: the stream held, continued with the padding around the captured length field. -/
theorem finalizeFrame_h_eq_hashStream (s : State) :
    s.finalizeFrame.h = hashStream s.h (s.pending ++ paddingBytes s.fill.toNat s.lengthField) := by
  rw [finalizeFrame_h, pad_eq_absorbBytes (lengthField_length s), absorbBytes_h_eq_hashStream]

theorem finalizeFrame_count (s : State) : s.finalizeFrame.count = (s.pad s.lengthField).count := by
  rw [State.finalizeFrame, leaveUnspecified_count, produceDigest_count]

theorem finalizeFrame_fill (s : State) : s.finalizeFrame.fill = 0#6 := by
  rw [State.finalizeFrame, leaveUnspecified_fill, produceDigest_fill, pad_fill (lengthField_length s)]

/-- FINALIZE runs a transform in every case, so the transients are what a transform leaves behind (R93, U6). -/
theorem finalizeFrame_transients_eq (s : State) : s.finalizeFrame.transients = transientsAfter s.config s.freeIndex := by
  rw [State.finalizeFrame, leaveUnspecified_transients, produceDigest_transformsRun,
    if_pos (transformsRun_lt_pad (lengthField_length s) s), produceDigest_config, pad_config, produceDigest_freeIndex,
    pad_freeIndex]

theorem statusByte_ok_finalized : statusByte .ok .finalized = 0x10#8 := by decide

/-- Settles O28, field by field, each from the padding's own lemma. -/
theorem finalizeCompletes : Obligations.FinalizeCompletes := fun s hp => by
  have hl := lengthField_length s
  refine ⟨_, exec_finalize hp, ?_, ?_, ?_, ?_, ?_, ?_, ?_⟩
  · rw [respond_h, finalizeFrame_h_eq_hashStream, State.lengthField]
  · rw [respond_digest, finalizeFrame_digest, respond_h, finalizeFrame_h]
  · rw [respond_count, finalizeFrame_count, pad_count hl]
  · rw [respond_fill, finalizeFrame_fill]
  · rw [respond_phase, finalizeFrame_phase]
  · rw [respond_transformsRun, finalizeFrame_transformsRun, pad_transformsRun hl]
  · rw [respond_responseChannel, finalizeFrame_responseChannel, finalizeFrame_phase, statusByte_ok_finalized]

/-- Settles O29: the padding and the digest write none of these fields, and FINALIZE is no misuse. -/
theorem finalizeFrame : Obligations.FinalizeFrame := fun s hp => by
  refine ⟨_, exec_finalize hp, ?_, ?_, ?_, ?_, ?_, ?_⟩
  · rw [respond_config, finalizeFrame_config]
  · rw [respond_dec, finalizeFrame_dec]
  · rw [respond_commandChannel, finalizeFrame_commandChannel]
  · rw [respond_hardResetLine, finalizeFrame_hardResetLine]
  · rw [respond_ok_eq, finalizeFrame_misuseSeen]
  · rw [respond_transients, finalizeFrame_transients_eq]

/-- Settles O31: the response leaves DIGEST, the digest of the message held. -/
theorem finalizeGivesTheMessageDigest : Obligations.FinalizeGivesTheMessageDigest := fun s _ h hp =>
  ⟨_, exec_finalize hp, (respond_digest .ok s.finalizeFrame).trans (finalizeFrame_digest_of_holds h)⟩

/-! ## GET_DIGEST (R120, R121, R128) -/

theorem outBytes_outBytes (as bs : List Byte) (s : State) : (s.outBytes as).outBytes bs = s.outBytes (as ++ bs) := by
  rw [State.outBytes, outBytes_responseChannel, List.append_assoc, State.outBytes, State.outBytes]

/-- The bytes that one GET_DIGEST answers in FINALIZED (R121). -/
def State.digestResponse (s : State) : List Byte :=
  0x10#8 :: s.digest.toList

/-- GET_DIGEST in FINALIZED puts out its 21 bytes and does nothing else. -/
theorem exec_getDigest_eq_outBytes {s : State} (hp : s.phase = .finalized) :
    exec .getDigest s = .next (s.outBytes s.digestResponse) := by
  have hrespond : s.respond .ok = s.outBytes [statusByte .ok s.phase] := respond_ok_eq s
  rw [exec_getDigest hp, hrespond, outBytes_outBytes, hp, statusByte_ok_finalized, List.singleton_append,
    State.digestResponse]

/-- It changes neither PHASE nor DIGEST, so every repetition answers the same bytes. -/
theorem execAll_replicate_getDigest : ∀ (n : Nat) {s : State}, s.phase = .finalized →
    execAll (List.replicate n .getDigest) s = .next (s.outBytes (List.replicate n s.digestResponse).flatten)
  | 0, s, _ => by
    rw [List.replicate_zero, List.replicate_zero, List.flatten_nil, State.outBytes, List.append_nil, execAll]
  | n + 1, s, hp => by
    have hsame : (s.outBytes s.digestResponse).digestResponse = s.digestResponse := rfl
    rw [List.replicate_succ, execAll_cons_of_exec (exec_getDigest_eq_outBytes hp),
      execAll_replicate_getDigest n (s := s.outBytes s.digestResponse) hp, hsame, outBytes_outBytes, List.replicate_succ,
      List.flatten_cons]

/-- A misuse appends its status byte and sets the ghost flag, and that is all (60_exceptions.md R124, R133). -/
theorem raiseMisuse_eq {c : Code} (hc : c ≠ .ok) (s : State) :
    s.raiseMisuse c = { s with
      responseChannel := s.responseChannel ++ [statusByte c s.phase]
      misuseSeen := true } := by
  rw [State.raiseMisuse, State.respond, isError_iff, decide_eq_true hc, Bool.or_true]

theorem codeOf_getDigest {p : Phase} (hp : p ≠ .finalized) : codeOf .getDigest p = .digestEarly := by
  cases p with
  | finalized => exact absurd rfl hp
  | _ => rfl

theorem statusByte_digestEarly {p : Phase} (hp : p ≠ .finalized) :
    statusByte .digestEarly p = if p = .idle then 0x03#8 else 0x0B#8 := by
  cases p with
  | idle => decide
  | absorbing => decide
  | finalized => exact absurd rfl hp

/-- Before FINALIZED, GET_DIGEST is reported and answers no digest byte (R128). -/
theorem exec_getDigest_early {s : State} (hp : s.phase ≠ .finalized) :
    exec .getDigest s = .next { s with
      responseChannel := s.responseChannel ++ [if s.phase = .idle then 0x03#8 else 0x0B#8]
      misuseSeen := true } := by
  have hcode := codeOf_getDigest hp
  have herror : Code.digestEarly ≠ .ok := by decide
  rw [exec_of_codeOf_ne_ok (hcode ▸ herror), hcode, raiseMisuse_eq herror, statusByte_digestEarly hp]

/-- Settles O34: the answer in FINALIZED, its repetition, and the misuse before it. -/
theorem getDigestCompletes : Obligations.GetDigestCompletes :=
  ⟨fun _ => exec_getDigest_eq_outBytes, fun _ n => execAll_replicate_getDigest n, fun _ => exec_getDigest_early⟩

end Sys2Proof.Machine
end

section
/-! PROOF. Errors (60_exceptions.md): each is one status byte and the ghost flag and changes nothing else, its frame is consumed
whole, the flag is never cleared, and nothing but a missing byte stops the block. -/

namespace Sys2Proof.Machine

/-! ## The commands that are errors (R124 to R129) -/

/-- A command whose error code is `c` appends that code with the unchanged phase and sets the ghost flag, and that is all. -/
theorem exec_error {i : Instr} {s : State} {c : Code} (hi : codeOf i s.phase = c) (hc : c ≠ .ok) :
    exec i s = .next { s with
      responseChannel := s.responseChannel ++ [statusByte c s.phase]
      misuseSeen := true } := by
  subst hi
  rw [exec_of_codeOf_ne_ok hc, raiseMisuse_eq hc]

theorem statusByte_absorbAfterFinal : statusByte .absorbAfterFinal .finalized = 0x11#8 := by decide

/-- Settles O25: in FINALIZED, ABSORB is the error E_ABSORB_AFTER_FINAL. -/
theorem absorbAfterFinalIsReported : Obligations.AbsorbAfterFinalIsReported := fun s len data hp => by
  have hi : codeOf (.absorb len data) s.phase = .absorbAfterFinal := by rw [hp, codeOf]
  rw [exec_error hi (by decide), hp, statusByte_absorbAfterFinal]

theorem statusByte_finalTwice : statusByte .finalTwice .finalized = 0x12#8 := by decide

/-- Settles O30: in FINALIZED, FINALIZE is the error E_FINAL_TWICE. -/
theorem finalizeTwiceIsReported : Obligations.FinalizeTwiceIsReported := fun s hp => by
  have hi : codeOf .finalize s.phase = .finalTwice := by rw [hp, codeOf]
  rw [exec_error hi (by decide), hp, statusByte_finalTwice]

theorem statusByte_illegalOpcode (p : Phase) :
    statusByte .illegalOpcode p = match p with | .idle => 0x04#8 | .absorbing => 0x0C#8 | .finalized => 0x14#8 := by
  cases p with
  | idle => decide
  | absorbing => decide
  | finalized => decide

/-- Settles O35: an illegal byte is the error E_ILLEGAL_OPCODE in every phase. -/
theorem illegalCompletes : Obligations.IllegalCompletes := fun s op => by
  have hi : codeOf (.illegal op) s.phase = .illegalOpcode := rfl
  have hexec := exec_error hi (by decide)
  rw [statusByte_illegalOpcode] at hexec
  exact hexec

/-! ## The step that consumes a frame with an error (R124, R129) -/

/-- Settles O37: the step executes the frame on the state with it consumed, and the command itself only reports. -/
theorem misuseChangesNothing : Obligations.MisuseChangesNothing := fun s _ rest hl hf hc =>
  (step_of_complete hl hf).trans (exec_error (s := s.consumed rest) rfl hc)

/-- The bytes that are no command's opcode are 0x00 and 0x05 to 0xFF (30_encoding.md R51, R52). -/
theorem illegal_wellFormed {op : Byte} (h : op = 0x00#8 ∨ 0x05#8 ≤ op) : (Instr.illegal op).wellFormed = true := by
  have hne : ∀ k : Byte, 0x01#8 ≤ k → k < 0x05#8 → op ≠ k := by
    rintro k hpos hlt rfl
    rcases h with rfl | hge
    · exact absurd hpos (by decide)
    · exact absurd hlt (BitVec.not_lt.mpr hge)
  simp [Instr.wellFormed, commandOpcode, hne]

/-- Settles O36: the byte alone is the frame of an illegal command, which is an error in every phase. -/
theorem illegalOpcodeConsumesOneByte : Obligations.IllegalOpcodeConsumesOneByte := fun s op rest hl hd hc hop => by
  have hf : s.fetch = .complete (.illegal op) rest := fetch_of_frame hd (illegal_wellFormed hop) hc
  have herror : codeOf (.illegal op) s.phase ≠ .ok := Code.noConfusion
  rw [misuseChangesNothing s (.illegal op) rest hl hf herror, ← hd]
  rfl

/-! ## The ghost flag (R133) -/

/-- A command sets the flag exactly when it has an error condition, and otherwise leaves it. -/
theorem exec_misuseSeen {i : Instr} {s t : State} (h : exec i s = .next t) :
    t.misuseSeen = (s.misuseSeen || decide (codeOf i s.phase ≠ .ok)) := by
  rcases command_cases i s.phase with rfl | ⟨len, data, rfl, hp⟩ | ⟨rfl, hp⟩ | ⟨rfl, hp⟩ | hc
  · cases (exec_reset s).symm.trans h
    simp [codeOf]
  · cases (exec_absorb len data hp).symm.trans h
    simp [codeOf]
  · cases (exec_finalize hp).symm.trans h
    simp [codeOf]
  · cases (exec_getDigest hp).symm.trans h
    simp [codeOf, hp]
  · cases (exec_of_codeOf_ne_ok hc).symm.trans h
    rw [raiseMisuse_misuseSeen, isError_iff]

/-- Settles O39: a command only raises the flag, and a hard reset or an unfinished frame leaves it. -/
theorem misuseFlagIsNeverCleared : Obligations.MisuseFlagIsNeverCleared := by
  refine ⟨fun s i => ?_, fun s t h hs => ?_⟩
  · obtain ⟨t, he⟩ := exec_next i s
    exact ⟨t, he, exec_misuseSeen he⟩
  · rcases step_cases h with ⟨-, rfl⟩ | ⟨-, i, rest, -, he⟩ | ⟨-, d, -, -, rfl⟩
    · exact hs
    · rw [exec_misuseSeen he, consumed_misuseSeen, hs, Bool.true_or]
    · exact hs

/-! ## When the block stops (R123, R130; 70_reset_and_hazards.md R150, R155) -/

/-- Settles O52: a hard reset and a whole frame always give a step, and an unfinished frame does when there is a byte of it. -/
theorem everyCommandExecutes : Obligations.EveryCommandExecutes := by
  refine ⟨fun s i => exec_next i s, fun s => ?_⟩
  by_cases henabled : s.hardResetLine = true ∨ s.commandChannel ≠ []
  · exact .inl ((enabled_iff s).mpr henabled)
  · obtain ⟨hl, hc⟩ : s.hardResetLine = false ∧ s.commandChannel = [] := by simpa using henabled
    have hf : s.fetch = .incomplete s.dec := by rw [State.fetch, hc, readFrame_nil]
    exact .inr ⟨hl, hc, (step_of_incomplete hl hf).trans (awaitBytes_of_nil hc)⟩

end Sys2Proof.Machine
end

section
/-! PROOF. Reset and the steps that do not happen (70_reset_and_hazards.md R141, R146, R150, R155). -/

namespace Sys2Proof.Machine

/-- Settles O32: it is `execAll_message`. -/
theorem messageDigestIsSha1 : Obligations.MessageDigestIsSha1 := fun s _ hl => execAll_message s hl

/-- With no byte to read and no hard reset the step stops, under the name for DEC's position. -/
theorem step_of_no_byte {s : State} (hl : s.hardResetLine = false) (hc : s.commandChannel = []) :
    step s = .fault (noByte s.dec) := by
  have hf : s.fetch = .incomplete s.dec := by rw [State.fetch, hc, readFrame_nil]
  rw [step_of_incomplete hl hf, awaitBytes_of_nil hc]

theorem noByte_of_ne_waitOp {d : Dec} (h : d ≠ .waitOp) : noByte d = .frameTruncated := by
  cases d with
  | waitOp => exact absurd rfl h
  | waitLen acc => rfl
  | waitData len got => rfl

/-- Settles O45: the name of the stop follows from DEC alone. -/
theorem noByteNoStep : Obligations.NoByteNoStep := fun s hl => by
  refine ⟨fun ⟨hc, hd⟩ => ?_, fun ⟨hc, hd⟩ => ?_⟩
  · rw [step_of_no_byte hl hc, noByte_of_ne_waitOp hd]
  · rw [step_of_no_byte hl hc, hd, noByte]

/-- Settles O46: the step is `State.hardReset`, which writes each of these values. -/
theorem hardResetStep : Obligations.HardResetStep := fun s hl => by
  have hcount : s.hardReset.count = 0#64 := by
    rw [State.count, hardReset_countHi, hardReset_countLo]
    rfl
  exact ⟨_, step_of_hardResetLine hl, rfl, hcount, rfl, rfl, rfl, rfl, rfl, rfl⟩

end Sys2Proof.Machine
end

section
/-! PROOF. Progress under weak fairness (70_reset_and_hazards.md R154): a whole frame waits unchanged until the block's next
step, that step comes, and it executes the frame in front. -/

namespace Sys2Proof.Machine

/-! ## The whole frames that wait (R57) -/

/-- The frames that stand whole on the command channel, the next one to execute first. -/
def State.wholeFrames (s : State) : List Instr :=
  framesOf s.dec s.commandChannel

theorem wholeFrames_of_fetch {s : State} {i : Instr} {rest : List Byte} (hf : s.fetch = .complete i rest) :
    s.wholeFrames = i :: framesOf .waitOp rest :=
  framesOf_of_complete hf

/-- Where a whole frame waits, the next fetch finds one. -/
theorem fetch_of_wholeFrames {s : State} {k : Nat} {i : Instr} (h : s.wholeFrames[k]? = some i) :
    ∃ j rest, s.fetch = .complete j rest := by
  cases hf : s.fetch with
  | complete j rest => exact ⟨j, rest, rfl⟩
  | incomplete d => simp [State.wholeFrames, framesOf_of_incomplete hf] at h

/-- Where a whole frame waits, the block can take a step. -/
theorem enabled_of_wholeFrames {s : State} {k : Nat} {i : Instr} (h : s.wholeFrames[k]? = some i) : Enabled s := by
  refine (enabled_iff s).mpr (.inr fun hc => ?_)
  simp [State.wholeFrames, hc] at h

/-- The environment leaves every whole frame at its place. -/
theorem perform_wholeFrames {a : RunAction} {s t : State} (ha : a ≠ .block) (hp : a.perform s = .next t) {k : Nat} {i : Instr}
    (h : s.wholeFrames[k]? = some i) : t.wholeFrames[k]? = some i := by
  obtain ⟨⟨bs, hc⟩, hd, -⟩ := perform_keeps ha hp
  rw [State.wholeFrames, hc, hd]
  exact framesOf_append_getElem? s.commandChannel bs h

/-- A step of the block that finds a whole frame and no hard reset executes it and moves the others up by one. -/
theorem step_wholeFrames {s t : State} {k : Nat} {i : Instr} (hl : s.hardResetLine = false) (hs : step s = .next t)
    (h : s.wholeFrames[k + 1]? = some i) : t.wholeFrames[k]? = some i := by
  obtain ⟨j, rest, hf⟩ := fetch_of_wholeFrames h
  rw [step_of_complete hl hf] at hs
  obtain ⟨hd, hc, -⟩ := exec_channels hs
  rw [wholeFrames_of_fetch hf, List.getElem?_cons_succ] at h
  rwa [State.wholeFrames, hd, hc]

/-- The step that finds frame `i` in front executes it and emits its response (R53, R55). -/
theorem step_executes_first {s t : State} {i : Instr} (hl : s.hardResetLine = false) (hs : step s = .next t)
    (h : s.wholeFrames[0]? = some i) :
    ∃ rest more, s.fetch = .complete i rest ∧ exec i (s.consumed rest) = .next t
      ∧ t.responseChannel = s.responseChannel ++ statusByte (codeOf i s.phase) t.phase :: more := by
  obtain ⟨j, rest, hf⟩ := fetch_of_wholeFrames h
  obtain rfl : j = i := by simpa [wholeFrames_of_fetch hf] using h
  rw [step_of_complete hl hf] at hs
  obtain ⟨more, hresp⟩ := exec_responseChannel hs
  exact ⟨rest, more, hf, hs, hresp⟩

/-! ## Counting the block's steps -/

theorem blockSteps_add (act : Nat → RunAction) {n m l : Nat} (hnm : n ≤ m) (hml : m ≤ l) :
    blockSteps act n l = blockSteps act n m + blockSteps act m l := by
  induction l, hml using Nat.le_induction with
  | base => simp
  | succ l hml ih => rw [blockSteps_succ act (hnm.trans hml), blockSteps_succ act hml, ih, Nat.add_assoc]

theorem blockSteps_eq_zero {act : Nat → RunAction} {n m : Nat} (hnm : n ≤ m) (h : ∀ j, n ≤ j → j < m → act j ≠ .block) :
    blockSteps act n m = 0 := by
  induction m, hnm using Nat.le_induction with
  | base => simp
  | succ m hnm ih =>
    rw [blockSteps_succ act hnm, ih fun j hj hlt => h j hj (hlt.trans m.lt_succ_self),
      if_neg (h m hnm m.lt_succ_self)]

/-! ## Runs (R154) -/

section
variable {run : Nat → State} {act : Nat → RunAction} (hrun : Execution run act)
include hrun

theorem step_of_block {n : Nat} (h : act n = .block) : step (run n) = .next (run (n + 1)) := by
  simpa only [h, RunAction.perform] using hrun n

/-- Until the block's next step every whole frame stays at its place. -/
theorem wholeFrames_until_block {n m k : Nat} {i : Instr} (hnm : n ≤ m) (hact : ∀ j, n ≤ j → j < m → act j ≠ .block)
    (h : (run n).wholeFrames[k]? = some i) : (run m).wholeFrames[k]? = some i := by
  induction m, hnm using Nat.le_induction with
  | base => exact h
  | succ m hnm ih =>
    exact perform_wholeFrames (hact m hnm m.lt_succ_self) (hrun m) (ih fun j hj hlt => hact j hj (hlt.trans m.lt_succ_self))

variable (hfair : WeaklyFair run act)
include hfair

/-- While a whole frame waits, the block's next step comes. -/
theorem exists_block_of_wholeFrames {n k : Nat} {i : Instr} (h : (run n).wholeFrames[k]? = some i) :
    ∃ m, n ≤ m ∧ act m = .block := by
  by_contra hnone
  have hact : ∀ j, n ≤ j → act j ≠ .block := fun j hj hb => hnone ⟨j, hj, hb⟩
  exact hnone (hfair n fun m hm =>
    enabled_of_wholeFrames (wholeFrames_until_block hrun hm (fun j hj _ => hact j hj) h))

/-- While a whole frame waits, the next thing that matters comes: a hard reset is asserted or the block takes its next step,
before which nothing else does and the frame stays at its place. -/
theorem next_reset_or_block {n k : Nat} {i : Instr} (h : (run n).wholeFrames[k]? = some i) :
    ∃ m, n ≤ m ∧ (∀ j, n ≤ j → j < m → (run j).hardResetLine = false) ∧ blockSteps act n m = 0
      ∧ (run m).wholeFrames[k]? = some i
      ∧ ((run m).hardResetLine = true ∨ ((run m).hardResetLine = false ∧ act m = .block)) := by
  have hex : ∃ m, n ≤ m ∧ ((run m).hardResetLine = true ∨ act m = .block) := by
    obtain ⟨m, hnm, hb⟩ := exists_block_of_wholeFrames hrun hfair h
    exact ⟨m, hnm, .inr hb⟩
  obtain ⟨hnm, hfirst⟩ := Nat.find_spec hex
  have hbefore : ∀ j, n ≤ j → j < Nat.find hex → (run j).hardResetLine = false ∧ act j ≠ .block := fun j hj hlt => by
    simpa [hj] using Nat.find_min hex hlt
  have hact : ∀ j, n ≤ j → j < Nat.find hex → act j ≠ .block := fun j hj hlt => (hbefore j hj hlt).2
  refine ⟨Nat.find hex, hnm, fun j hj hlt => (hbefore j hj hlt).1, blockSteps_eq_zero hnm hact,
    wholeFrames_until_block hrun hnm hact h, ?_⟩
  cases hl : (run (Nat.find hex)).hardResetLine with
  | true => exact .inl rfl
  | false => exact .inr ⟨rfl, hfirst.resolve_left (by simp [hl])⟩

/-- A frame with `k` whole frames before it comes to the front after `k` steps of the block, and the block's next step finds
it there, unless a hard reset is asserted first. By induction on `k`: each step takes one frame away. -/
theorem reset_or_block_at_front {k : Nat} {i : Instr} : ∀ {n : Nat}, (run n).wholeFrames[k]? = some i →
    ∃ m, n ≤ m ∧ (∀ j, n ≤ j → j < m → (run j).hardResetLine = false)
      ∧ ((run m).hardResetLine = true
        ∨ ((run m).hardResetLine = false ∧ act m = .block ∧ blockSteps act n m = k ∧ (run m).wholeFrames[0]? = some i)) := by
  induction k with
  | zero =>
    intro n h
    obtain ⟨m, hnm, hl, hzero, hm, hreset | ⟨hlm, hblock⟩⟩ := next_reset_or_block hrun hfair h
    · exact ⟨m, hnm, hl, .inl hreset⟩
    · exact ⟨m, hnm, hl, .inr ⟨hlm, hblock, hzero, hm⟩⟩
  | succ k ih =>
    intro n h
    obtain ⟨m, hnm, hl, hzero, hm, hreset | ⟨hlm, hblock⟩⟩ := next_reset_or_block hrun hfair h
    · exact ⟨m, hnm, hl, .inl hreset⟩
    · obtain ⟨l, hml, hl', hend⟩ := ih (step_wholeFrames hlm (step_of_block hrun hblock) hm)
      have hone : blockSteps act n (m + 1) = 1 := by rw [blockSteps_succ act hnm, hzero, if_pos hblock]
      refine ⟨l, by omega, fun j hj hlt => ?_, ?_⟩
      · rcases Nat.lt_trichotomy j m with hjm | rfl | hjm
        · exact hl j hj hjm
        · exact hlm
        · exact hl' j hjm hlt
      · refine hend.imp_right fun ⟨hll, hlb, hk, hfront⟩ => ⟨hll, hlb, ?_, hfront⟩
        rw [blockSteps_add act (hnm.trans m.le_succ) hml, hone, hk, Nat.add_comm]

end

/-- Settles O56: the block's step at the front executes the frame and answers it. -/
theorem completeFramesAreEventuallyExecuted : Obligations.CompleteFramesAreEventuallyExecuted := by
  intro run act hrun hfair n k i h
  obtain ⟨m, hnm, hl, hreset | ⟨hlm, hblock, hk, hfront⟩⟩ := reset_or_block_at_front hrun hfair h
  · exact ⟨m, hnm, hl, .inl hreset⟩
  · obtain ⟨rest, more, hf, he, hresp⟩ := step_executes_first hlm (step_of_block hrun hblock) hfront
    exact ⟨m, hnm, hl, .inr ⟨hblock, hk, rest, more, hf, he, hresp⟩⟩

end Sys2Proof.Machine
end

section
/-! PROOF. Final runs (70_reset_and_hazards.md R155): the log of a run accounts for every byte of the command stream and for
every frame, and a hard reset only adds to the bytes that were discarded. -/

namespace Sys2Proof.Machine

/-- What holds of the log of every run: of the bytes sent, those neither read nor waiting are the `discarded` ones; since the
last hard reset the commands `answered` are the frames whose responses have been emitted, and DEC and the command channel
hold the rest of the framing; all frames before it are answered too unless bytes were discarded. -/
structure RunLog.Accounts (discarded : Nat) (answered : List Instr) (r : RunLog) : Prop where
  bytes : r.read + r.state.commandChannel.length + discarded = r.earlierBytes + r.sent.length
  framing : ∀ later, framesOf r.startDec (r.sent ++ later) = answered ++ framesOf r.state.dec (r.state.commandChannel ++ later)
  responses_le : r.responses ≤ r.earlierFrames + answered.length
  responses_eq : discarded = 0 → r.responses = r.earlierFrames + answered.length

theorem start_accounts (s : State) : (RunLog.start s).Accounts 0 [] :=
  ⟨by simp [RunLog.start], fun _ => rfl, le_rfl, fun _ => rfl⟩

section
variable {r : RunLog} {discarded : Nat} {answered : List Instr} (h : r.Accounts discarded answered)
include h

/-- The frames of the stream are those answered and those that wait. -/
theorem frames_of_accounts : r.frames = r.earlierFrames + answered.length + r.state.wholeFrames.length := by
  have hframing := h.framing []
  rw [List.append_nil, List.append_nil] at hframing
  rw [RunLog.frames, hframing, List.length_append, Nat.add_assoc, State.wholeFrames]

/-- With no byte waiting every frame since the last hard reset is answered. -/
theorem frames_of_accounts_of_nil (hc : r.state.commandChannel = []) : r.frames = r.earlierFrames + answered.length := by
  rw [frames_of_accounts h, State.wholeFrames, hc, framesOf_nil, List.length_nil, Nat.add_zero]

theorem responses_le_frames_of_accounts : r.responses ≤ r.frames := by
  rw [frames_of_accounts h]
  exact h.responses_le.trans (Nat.le_add_right _ _)

/-- All bytes have been read exactly when none waits and none was discarded. -/
theorem read_all_iff_of_accounts :
    r.read = r.earlierBytes + r.sent.length ↔ r.state.commandChannel = [] ∧ discarded = 0 := by
  have hbytes := h.bytes
  rw [← List.length_eq_zero_iff]
  omega

/-- R155's two items come down to the state reached, and to no byte discarded. -/
theorem final_iff_of_accounts : r.Final ↔ r.state.Final ∧ discarded = 0 := by
  rw [RunLog.Final, read_all_iff_of_accounts h]
  constructor
  · rintro ⟨⟨⟨hc, hzero⟩, hd⟩, -⟩
    exact ⟨⟨hc, hd⟩, hzero⟩
  · rintro ⟨⟨hc, hd⟩, hzero⟩
    refine ⟨⟨⟨hc, hzero⟩, hd⟩, ?_⟩
    rw [h.responses_eq hzero, frames_of_accounts_of_nil h hc]

/-! ## One action -/

/-- An action that touches neither DEC nor the command channel leaves the account as it is. -/
theorem state_accounts {t : State} (hd : t.dec = r.state.dec) (hc : t.commandChannel = r.state.commandChannel) :
    RunLog.Accounts discarded answered { r with state := t } :=
  ⟨by rw [hc]; exact h.bytes, fun later => by rw [hd, hc]; exact h.framing later, h.responses_le, h.responses_eq⟩

/-- Bytes that the host sends wait behind the others. -/
theorem send_accounts (bs : List Byte) :
    RunLog.Accounts discarded answered { r with state := r.state.send bs, sent := r.sent ++ bs } := by
  refine ⟨?_, fun later => ?_, h.responses_le, h.responses_eq⟩
  · have hbytes := h.bytes
    simp only [send_commandChannel, List.length_append]
    omega
  · simpa using h.framing (bs ++ later)

/-- Executing a frame answers it. -/
theorem recordStep_accounts_of_complete {t : State} {i : Instr} {rest : List Byte} (hf : r.state.fetch = .complete i rest)
    (he : exec i (r.state.consumed rest) = .next t) : (r.recordStep t).Accounts discarded (answered ++ [i]) := by
  obtain ⟨hd, hc, -, hlt⟩ := exec_channels he
  rw [consumed_dec] at hd
  rw [consumed_commandChannel] at hc
  rw [consumed_responseChannel] at hlt
  obtain ⟨used, -, hused⟩ := readFrame_complete_suffix r.state.commandChannel hf
  have hlen : r.state.commandChannel.length = used.length + rest.length := by rw [hused, List.length_append]
  have hbytes := h.bytes
  have hle := h.responses_le
  refine ⟨?_, fun later => ?_, ?_, fun hzero => ?_⟩
  · simp only [RunLog.recordStep, hc]
    omega
  · simp only [RunLog.recordStep, hd, hc]
    rw [h.framing later, framesOf_append_of_complete _ later hf, List.append_assoc, List.singleton_append]
  · simp only [RunLog.recordStep, if_pos hlt, List.length_append, List.length_singleton]
    omega
  · have heq := h.responses_eq hzero
    simp only [RunLog.recordStep, if_pos hlt, List.length_append, List.length_singleton]
    omega

/-- Moving on inside a frame answers none. -/
theorem recordStep_accounts_of_incomplete {d : Dec} (hf : r.state.fetch = .incomplete d) :
    (r.recordStep (r.state.waiting d)).Accounts discarded answered := by
  have hbytes := h.bytes
  refine ⟨?_, fun later => ?_, ?_, fun hzero => ?_⟩
  · simp only [RunLog.recordStep, waiting_commandChannel, List.length_nil]
    omega
  · simp only [RunLog.recordStep, waiting_dec, waiting_commandChannel, List.nil_append]
    rw [h.framing later, framesOf_append_of_incomplete _ later hf]
  · simpa [RunLog.recordStep] using h.responses_le
  · simpa [RunLog.recordStep] using h.responses_eq hzero

/-- A hard reset closes what came before it: the bytes that waited are discarded, and their frames stay unanswered. -/
theorem recordHardReset_accounts :
    (r.recordHardReset r.state.hardReset).Accounts (discarded + r.state.commandChannel.length) [] := by
  have hbytes := h.bytes
  have hle := responses_le_frames_of_accounts h
  refine ⟨?_, fun later => rfl, hle, fun hzero => ?_⟩
  · simp only [RunLog.recordHardReset, hardReset_commandChannel, List.length_nil]
    omega
  · obtain ⟨hdiscarded, hc⟩ : discarded = 0 ∧ r.state.commandChannel = [] := by simpa using hzero
    calc r.responses
        = r.earlierFrames + answered.length := h.responses_eq hdiscarded
      _ = r.frames := (frames_of_accounts_of_nil h hc).symm

/-- A step of the block that is no hard reset executes a frame or moves on inside one. -/
theorem recordStep_accounts {t : State} (hl : r.state.hardResetLine = false) (hs : step r.state = .next t) :
    ∃ answered', (r.recordStep t).Accounts discarded answered' := by
  rcases step_cases hs with ⟨hreset, -⟩ | ⟨-, i, rest, hf, he⟩ | ⟨-, d, hf, -, rfl⟩
  · simp [hl] at hreset
  · exact ⟨_, recordStep_accounts_of_complete h hf he⟩
  · exact ⟨_, recordStep_accounts_of_incomplete h hf⟩

end

/-- The bytes that an action discards: those that wait when the block takes a hard reset (notes/assumptions/8.md). -/
def RunLog.discards (a : RunAction) (r : RunLog) : Nat :=
  if a = .block ∧ r.state.hardResetLine = true then r.state.commandChannel.length else 0

theorem discards_of_hardResetLine {r : RunLog} (hl : r.state.hardResetLine = true) :
    r.discards .block = r.state.commandChannel.length :=
  if_pos ⟨rfl, hl⟩

theorem discards_of_no_hardReset {r : RunLog} (a : RunAction) (hl : r.state.hardResetLine = false) : r.discards a = 0 :=
  if_neg fun ⟨_, hreset⟩ => by simp [hl] at hreset

/-- Every action keeps the account, with the bytes it discards added. -/
theorem record_accounts {r : RunLog} {discarded : Nat} {answered : List Instr} (h : r.Accounts discarded answered)
    {a : RunAction} {t : State} (hp : a.perform r.state = .next t) :
    ∃ answered', (r.record a t).Accounts (discarded + r.discards a) answered' := by
  cases a with
  | block =>
    cases hl : r.state.hardResetLine with
    | true =>
      obtain rfl : r.state.hardReset = t := by simpa [RunAction.perform, step_of_hardResetLine hl] using hp
      rw [RunLog.record, if_pos hl, discards_of_hardResetLine hl]
      exact ⟨[], recordHardReset_accounts h⟩
    | false =>
      rw [RunLog.record, if_neg (by simp [hl]), discards_of_no_hardReset .block hl]
      exact recordStep_accounts h hl hp
  | send bs => cases hp; exact ⟨answered, send_accounts h bs⟩
  | take n => cases hp; exact ⟨answered, state_accounts h rfl rfl⟩
  | assertHardReset => cases hp; exact ⟨answered, state_accounts h rfl rfl⟩
  | idle => cases hp; exact ⟨answered, state_accounts h rfl rfl⟩

/-! ## Whole runs -/

/-- What every action of a run keeps holds at its end. -/
theorem play_keeps {P : RunLog → Prop} {as : List RunAction} {r' : RunLog}
    (hkeep : ∀ a ∈ as, ∀ (r : RunLog) (t : State), P r → a.perform r.state = .next t → P (r.record a t)) :
    ∀ {r : RunLog}, P r → RunLog.play as r = some r' → P r' := by
  induction as with
  | nil =>
    intro r h hplay
    cases hplay
    exact h
  | cons a as ih =>
    intro r h hplay
    obtain ⟨t, hp, hrest⟩ := play_cons.mp hplay
    obtain ⟨hhead, htail⟩ := List.forall_mem_cons.mp hkeep
    exact ih htail (hhead r t h hp) hrest

/-- A log with an account in which at least `least` bytes were discarded. -/
def RunLog.DiscardedAtLeast (least : Nat) (r : RunLog) : Prop :=
  ∃ discarded answered, least ≤ discarded ∧ r.Accounts discarded answered

/-- Bytes once discarded stay so. -/
theorem play_discardedAtLeast {least : Nat} {as : List RunAction} {r r' : RunLog} (h : r.DiscardedAtLeast least)
    (hplay : RunLog.play as r = some r') : r'.DiscardedAtLeast least := by
  refine play_keeps (P := RunLog.DiscardedAtLeast least) (fun a _ r t ⟨n, answered, hle, h⟩ hp => ?_) h hplay
  obtain ⟨answered', h'⟩ := record_accounts h hp
  exact ⟨_, answered', hle.trans (Nat.le_add_right n _), h'⟩

/-- Every run keeps an account. -/
theorem accounts_of_play {s : State} {as : List RunAction} {r : RunLog} (hplay : RunLog.play as (.start s) = some r) :
    ∃ discarded answered, r.Accounts discarded answered := by
  obtain ⟨discarded, answered, -, h⟩ := play_discardedAtLeast ⟨0, [], le_rfl, start_accounts s⟩ hplay
  exact ⟨discarded, answered, h⟩

/-- Only the environment asserts the hard reset. -/
theorem perform_hardResetLine {a : RunAction} {s t : State} (ha : a ≠ .assertHardReset) (hl : s.hardResetLine = false)
    (hp : a.perform s = .next t) : t.hardResetLine = false := by
  by_cases hblock : a = .block
  · subst hblock
    rcases step_channels hl hp with ⟨i, rest, -, -, -, -, ht, -⟩ | ⟨d, -, rfl⟩
    · exact ht
    · exact hl
  · obtain ⟨-, -, hline⟩ := perform_keeps hblock hp
    exact (hline ha).trans hl

/-- A run without a hard reset discards nothing. -/
theorem accounts_of_play_of_no_hardReset {s : State} {as : List RunAction} {r : RunLog} (hl : s.hardResetLine = false)
    (has : RunAction.assertHardReset ∉ as) (hplay : RunLog.play as (.start s) = some r) :
    ∃ answered, r.Accounts 0 answered := by
  refine (play_keeps (P := fun r => r.state.hardResetLine = false ∧ ∃ answered, r.Accounts 0 answered)
    (fun a ha r t ⟨hl, answered, h⟩ hp => ?_) ⟨hl, [], start_accounts s⟩ hplay).2
  have hne : a ≠ .assertHardReset := fun e => has (e ▸ ha)
  obtain ⟨answered', h'⟩ := record_accounts h hp
  rw [discards_of_no_hardReset a hl] at h'
  exact ⟨by rw [record_state]; exact perform_hardResetLine hne hl hp, answered', h'⟩

/-- Settles O57: the account decides all three clauses; a stream read to its end had no byte discarded. -/
theorem runsReadToTheEndAreFinal : Obligations.RunsReadToTheEndAreFinal := by
  intro s as r hplay
  obtain ⟨discarded, answered, h⟩ := accounts_of_play hplay
  refine ⟨fun hread hd => ?_, responses_le_frames_of_accounts h, fun hl has => ?_⟩
  · obtain ⟨hc, hzero⟩ := (read_all_iff_of_accounts h).mp hread
    exact (final_iff_of_accounts h).mpr ⟨⟨hc, hd⟩, hzero⟩
  · obtain ⟨answered', h'⟩ := accounts_of_play_of_no_hardReset hl has hplay
    simpa using final_iff_of_accounts h'

/-- Settles O58: the hard reset discards at least one byte, and in a final run none was. -/
theorem discardedBytesAreNeverFinal : Obligations.DiscardedBytesAreNeverFinal := by
  intro s as bs r r' hplay hl hc hplay' hfinal
  obtain ⟨n, answered, h⟩ := accounts_of_play hplay
  obtain ⟨t, hp, hrest⟩ := play_cons.mp hplay'
  obtain ⟨answered', hreset⟩ := record_accounts h hp
  rw [discards_of_hardResetLine hl] at hreset
  have hpos : 1 ≤ n + r.state.commandChannel.length :=
    (List.length_pos_of_ne_nil hc).trans_le (Nat.le_add_left _ n)
  obtain ⟨discarded, _, hle, h'⟩ := play_discardedAtLeast ⟨_, answered', hpos, hreset⟩ hrest
  obtain ⟨-, hzero⟩ := (final_iff_of_accounts h').mp hfinal
  omega

end Sys2Proof.Machine
end

section
/-! PROOF. The hard reset, the host side of the block and the bookkeeping (92_eei_decisions.md D14, D25). -/

namespace Sys2Proof.Machine

/-- Settles O47: the step is `State.hardReset`, whose field lemmas say which fields it clears and which it keeps. -/
theorem hardResetKeepsBookkeeping : Obligations.HardResetKeepsBookkeeping := fun s hl =>
  ⟨s.hardReset, step_of_hardResetLine hl, hardReset_commandChannel s, hardReset_hardResetLine s, hardReset_config s,
    hardReset_misuseSeen s, hardReset_transformsRun s, hardReset_freeIndex s⟩

end Sys2Proof.Machine
end
